-- ==== Sys2Proof/Word.lean ====
section
/-! DEFINITION. The data types of the core: bytes, blocks, the workspace, command words (spec/00_scope.md R3, R6 to R9). -/

namespace Sys2Proof

/-- A byte, an unsigned 8-bit value (R6). `^^^` is the spec's XOR and `+` its `+8`, addition modulo 256 (R7). -/
abbrev Byte := BitVec 8

/-- A block of BLOCK_LEN = 16 bytes, indexed from 0 (R3, R8). -/
abbrev Block := Vector Byte 16

/-- The mixing workspace of WS_LEN = 48 bytes: X0 = [0..15], X1 = [16..31], X2 = [32..47] (R3, R8). -/
abbrev Workspace := Vector Byte 48

/-- A 32-bit command word; bit 0 is the least significant bit (R9, R70). -/
abbrev CmdWord := BitVec 32

end Sys2Proof
end

