-- ==== Sys2Proof/Config.lean ====
section
/-! DEFINITION. The constant OUT_LEN of spec/00_scope.md R3 and the open parameters of R4. The other constants of R3 stand where they
act: BLOCK_LEN, CKS_LEN and WS_LEN are the sizes of Block and Workspace (Word.lean), S_SIZE the size of the S-table
(Machine/Sbox.lean), PASSES the pass count of passesFrom (Machine/Ops.lean). -/

namespace Sys2Proof.Config

/-- OUT_LEN: bytes in the digest (R3), GET_OUTLEN's payload (40_commands.md R107). -/
abbrev outLen : Nat := 16

/-- ALG_NAME, the value GET_NAME returns (R4; 92_eei_decisions.md D14). The spec leaves the value open: no body, so nothing
can be proved about it. That it is a String of Lean is log entry 4. -/
opaque algName : String

/-- NUM_INSTANCES less one: R4 asks for a natural number of at least 1. -/
opaque extraInstances : Nat

/-- NUM_INSTANCES, the number of core instances in a system, at least 1 (R4; D20). -/
def numInstances : Nat := extraInstances + 1

/-- CORE_BASE, where the command port sits in a host address space (R4; D26). No rule reads it, and nothing in the model does
(log entry 4). -/
opaque coreBase : Nat

end Sys2Proof.Config
end

