-- ==== Sys2Proof/Syntax.lean ====
section
/-! DEFINITION. The commands of the core as syntax: one constructor per row of spec/opcode_table.json
(spec/30_encoding.md R71, R74, R75). -/

namespace Sys2Proof

/-- The operand bundle that comes beside a command word (R74). Only UPDATE_BULK reads it; a request for any other command
carries one that nothing reads. -/
structure Bundle where
  /-- `IN`: `none` is NULL, `some m` the byte sequence `m` of length IN_LEN (20_memory.md R51). -/
  input : Option (List Byte)
  /-- `OFF`, 32 bits, two's complement. -/
  OFF : BitVec 32
  /-- `LEN`, 32 bits, two's complement. -/
  LEN : BitVec 32
deriving DecidableEq, Repr

/-- The bundle with nothing in it: an empty byte sequence, OFF = 0, LEN = 0 (DESIGN CHOICE, log entry 9). -/
def Bundle.nothing : Bundle := ⟨some [], 0, 0⟩

/-- What travels with one command: its word and its operand bundle (R70). -/
structure Packet where
  word : CmdWord
  bundle : Bundle
deriving DecidableEq, Repr

/-- The six commands (R71), with their operands as R75 decodes them. -/
inductive Instr where
  /-- RESET (R100) -/
  | reset
  /-- UPDATE_BYTE (R102): the data byte `b = w[15:8]` -/
  | updateByte (b : Byte)
  /-- UPDATE_BULK (R103): `IN`, and the integers `o = sint(OFF)` and `n = sint(LEN)`, in their range by `wellFormed` (log entry 14) -/
  | updateBulk (input : Option (List Byte)) (o n : Int)
  /-- DIGEST (R105) -/
  | digest
  /-- GET_NAME (R106) -/
  | getName
  /-- GET_OUTLEN (R107) -/
  | getOutlen
deriving DecidableEq, Repr

end Sys2Proof
end

