-- ==== Sys2Proof/Machine/State.lean ====
section
/-! DEFINITION. The state of one core (spec/10_state.md R20, R35) and of its command port (spec/60_exceptions.md R200;
spec/70_reset_and_hazards.md R236, R239), as plain data; the reasons a step can stop; the state at power-on. -/

namespace Sys2Proof.Machine

/-- PHASE, the sequencer phase (R26). -/
inductive Phase where
  /-- the phase between commands -/
  | accumulating
  /-- the transient phase inside a DIGEST -/
  | finalizing
deriving DecidableEq, Repr

/-- The architectural state of one core instance, exactly the fields of R20 under their own names. -/
structure CoreState where
  /-- input buffer, BUF[0..15] (R25) -/
  BUF : Block
  /-- buffer count, the number of valid leading bytes of BUF; 4 bits (R28) -/
  BLEN : Fin 16
  /-- checksum accumulator, C[0..15] (R29) -/
  C : Block
  /-- checksum carry byte (R30) -/
  L : Byte
  /-- mixing workspace, X[0..47] (R32) -/
  X : Workspace
  /-- sequencer phase (R26), Finalizing inside a DIGEST only (log entry 15) -/
  PHASE : Phase
deriving DecidableEq, Repr

/-- The response statuses (R200); their 2-bit codes are in Flags.lean. -/
inductive Status where
  /-- the command completed -/
  | ok
  /-- UPDATE_BULK: a negative offset or length, or a sum beyond the input (R201) -/
  | invalidArgument
  /-- UPDATE_BULK: no input where a byte sequence was required (R202) -/
  | nullInput
  /-- the word decodes to Illegal (R203) -/
  | illegalCommand
deriving DecidableEq, Repr

/-- What a response carries beside its status (R76). -/
inductive Payload where
  /-- nothing: RESET, UPDATE_BYTE, UPDATE_BULK and every error -/
  | empty
  /-- DIGEST: the 16 bytes D[0..15] -/
  | digest (D : Block)
  /-- GET_NAME: ALG_NAME -/
  | name (n : String)
  /-- GET_OUTLEN: an integer, of no stated width (log entry 16) -/
  | outLen (n : Nat)
deriving DecidableEq, Repr

/-- One response, `(status, payload)` (R76, R200). -/
structure Response where
  status : Status
  payload : Payload
deriving DecidableEq, Repr

/-- Something the host did between issuing a command and receiving its response that may break a duty of R236 (the form is the
model's: DESIGN CHOICE, log entries 6 and 7). The core cannot prevent it; 93_implementation_defined.md I5 to I9 put it outside
the model. -/
inductive HostAct where
  /-- the host issued another command before this one's response (duty 1; I6) -/
  | issuedCommand
  /-- this command belongs to another concurrent message stream than the one the core is serving (duty 3; I5, I14) -/
  | otherStream
  /-- the host changed the byte IN[i] (duty 2 when i is in the range the command reads; I7) -/
  | changedInput (i : Nat)
  /-- the host input space has read side effects (duty 4; I8) -/
  | inputNotPlain
  /-- the platform asserted its reset input inside the command (R231; I9) -/
  | assertedReset
deriving DecidableEq, Repr

/-- One command as the host issues it: its word and operand bundle (R70), and the host's conduct until the response; the empty
list is a host that keeps its duties. -/
structure Request where
  packet : Packet
  conduct : List HostAct
deriving DecidableEq, Repr

/-- What reaches the core from outside, always between commands (R108, R231). -/
inductive HostEvent where
  /-- the host issues a command -/
  | command (r : Request)
  /-- the platform's reset input is asserted (R231) -/
  | resetInput
deriving DecidableEq, Repr

/-- Reasons to stop with a fault: there are none. "There is no error state reachable from valid input" (R204), and
93_implementation_defined.md treats no item as stuck. Nobody raises one; safe (log entry 8). -/
inductive Fault where
deriving DecidableEq, Repr

/-- Reasons to refuse a run. All but the first are runs in which the host breaks a duty, which R236 says a model must treat as
outside the model; `step` raises them before the command's meaning. Safe: nothing is claimed of such a run. -/
inductive Refusal where
  /-- an instruction without a meaning in this model; no arm of exec raises it. Safe. -/
  | notModelled (mnemonic : String)
  /-- another command was issued before this one's response (duty 1; I6). Raised by step; safe. -/
  | overlappingCommand
  /-- another message stream uses the core (duty 3; I5, I14). Raised by step; safe. -/
  | sharedCore
  /-- a byte that the UPDATE_BULK reads was changed meanwhile (duty 2; I7). Raised by step; safe. -/
  | inputChanged
  /-- the UPDATE_BULK's input space has read side effects (duty 4; I8). Raised by step; safe. -/
  | inputNotPlain
  /-- the reset input was asserted in the middle of a command (I9). Raised by step; safe. -/
  | resetInsideCommand
deriving DecidableEq, Repr

/-- One core and its command port. `core` is the hardware's state (R20). `inbox` is what the host is still going to do, in order,
each command issued when the response to the one before has been returned; `outbox` is the responses returned so far, oldest
first (R239). Both lists are the model's own (DESIGN CHOICE, log entry 1): no operation of the core reads `outbox`, and `step`
takes the head of `inbox`. -/
structure State where
  core : CoreState
  inbox : List HostEvent
  outbox : List Response
deriving DecidableEq, Repr

/-- The core at power-on (R230, R35): the state CLEAR leaves. BUF is unspecified there; the model holds zeros (DESIGN CHOICE,
unsafe, log entry 2; unobservable by 41_block_buffer.md R136). -/
def CoreState.reset : CoreState where
  BUF := Vector.replicate 16 0
  BLEN := 0
  C := Vector.replicate 16 0
  L := 0
  X := Vector.replicate 48 0
  PHASE := .accumulating

/-- Power-on: the core in its reset state, no command issued and no response returned. -/
def State.reset : State where
  core := CoreState.reset
  inbox := []
  outbox := []

end Sys2Proof.Machine
end

