-- ==== Sys2Proof/Machine/Ops.lean ====
section
/-! DEFINITION. The internal operations of the core (spec/30_encoding.md R78), each as the pseudocode of its rule, and how a command
ends: with its response (spec/30_encoding.md R76) or rejected (spec/60_exceptions.md R208). -/

namespace Sys2Proof.Machine

/-! ## CLEAR -/

/-- CLEAR (40_commands.md R101): BLEN, C, L, X and PHASE take their reset values; BUF is not written. -/
def clear (c : CoreState) : CoreState :=
  { c with
    BLEN := 0
    C := Vector.replicate 16 0
    L := 0
    X := Vector.replicate 48 0
    PHASE := .accumulating }

/-! ## Checksum update (42_checksum_compression.md R152) -/

/-- One position of CKS_UPDATE: `l <- C[i] XOR S[M[i] XOR l]; C[i] <- l`. The pair is (C, l). -/
@[irreducible] def cksStep (M : Block) (p : Block × Byte) (i : Fin 16) : Block × Byte :=
  let l := p.1[i] ^^^ sbox (M[i] ^^^ p.2)
  (p.1.set i l, l)

/-- CKS_UPDATE's loop over `i` in 0..15, from the accumulator and the carried byte. Irreducible, as the passes are, so that no
proof unrolls it by accident. -/
@[irreducible] def cksLoop (M : Block) (C : Block) (l : Byte) : Block × Byte :=
  (List.finRange 16).foldl (cksStep M) (C, l)

/-- CKS_UPDATE(M): the loop starts from the carry L, and its last `l` is carried to the next block. -/
def cksUpdate (M : Block) (c : CoreState) : CoreState :=
  let p := cksLoop M c.C c.L
  { c with C := p.1, L := p.2 }

/-! ## Compression round (42_checksum_compression.md R155, R156) -/

/-- COMPRESS_LOAD on the workspace: `X[16+i] <- M[i]` and `X[32+i] <- X[i] XOR M[i]` for `i` in 0..15; X[0..15] stays (R155). -/
@[irreducible] def loadWorkspace (M : Block) (X : Workspace) : Workspace :=
  Vector.ofFn fun k : Fin 48 =>
    if k.val < 16 then X[k]
    else if h : k.val < 32 then M[k.val - 16]
    else X[k.val - 32] ^^^ M[k.val - 32]

/-- One position of a pass: `t <- X[k] XOR S[t]; X[k] <- t`. The pair is (X, t). -/
@[irreducible] def passStep (p : Workspace × Byte) (k : Fin 48) : Workspace × Byte :=
  let t := p.1[k] ^^^ sbox p.2
  (p.1.set k t, t)

/-- Pass `j`: all 48 positions in order, then `t <- t +8 j` (R156). -/
@[irreducible] def onePass (p : Workspace × Byte) (j : Nat) : Workspace × Byte :=
  let q := (List.finRange 48).foldl passStep p
  (q.1, q.2 + BitVec.ofNat 8 j)

/-- COMPRESS_PASSES: PASSES = 18 passes from a fresh `t = 0x00`; `t` is transient (R156; 10_state.md R33). -/
@[irreducible] def passesFrom (X : Workspace) : Workspace :=
  ((List.range 18).foldl onePass (X, 0)).1

/-- COMPRESS_LOAD(M) (R155): writes X[16..47]. -/
def compressLoad (M : Block) (c : CoreState) : CoreState :=
  { c with X := loadWorkspace M c.X }

/-- COMPRESS_PASSES() (R156): writes X[0..47]. -/
def compressPasses (c : CoreState) : CoreState :=
  { c with X := passesFrom c.X }

/-- COMPRESS(M): load, then the 18 passes (R156). -/
def compress (M : Block) (c : CoreState) : CoreState :=
  compressPasses (compressLoad M c)

/-! ## Block buffer controller (41_block_buffer.md) -/

/-- PROCESS_BLOCK(M): CKS_UPDATE, then COMPRESS (R132). -/
def processBlock (M : Block) (c : CoreState) : CoreState :=
  compress M (cksUpdate M c)

/-- `BUF[BLEN] <- b`, the first step of APPEND (R131). -/
def storeByte (b : Byte) (c : CoreState) : CoreState :=
  { c with BUF := c.BUF.set c.BLEN b }

/-- APPEND(b): store the byte; a full buffer is processed at once and BLEN becomes 0, otherwise BLEN counts up (R131). -/
def append (b : Byte) (c : CoreState) : CoreState :=
  let c1 := storeByte b c
  if c1.BLEN = 15 then { processBlock c1.BUF c1 with BLEN := 0 }
  else { c1 with BLEN := c1.BLEN + 1 }

/-- APPEND of each byte in order (R103's loop). -/
def appendAll (bs : List Byte) (c : CoreState) : CoreState :=
  bs.foldl (fun c b => append b c) c

/-! ## Padding and finalization (43_finalization.md) -/

/-- The padding length P = BLOCK_LEN - BLEN as a byte, 1..16 (R181). -/
def padByte (blen : Fin 16) : Byte := BitVec.ofNat 8 (16 - blen.val)

/-- PAD on the buffer: `BUF[i] <- P` for `i` in BLEN..15 (R181). -/
@[irreducible] def padBlock (buf : Block) (blen : Fin 16) : Block :=
  Vector.ofFn fun i : Fin 16 => if i < blen then buf[i] else padByte blen

/-- PAD fills the pending block; BLEN is not written (R181). -/
def pad (c : CoreState) : CoreState :=
  { c with BUF := padBlock c.BUF c.BLEN }

/-- EXTRACT: `D[i] <- X[i]` for `i` in 0..15 (R183). -/
def extract (c : CoreState) : Block :=
  Vector.ofFn fun i : Fin 16 => c.X[i.val]

/-- Steps F1 to F4 of FINALIZE: enter Finalizing, PAD, PROCESS_BLOCK on the padded block, COMPRESS on the checksum, which is
not checksum-updated (R180, R182; 90_conflicts.md C3). -/
def finalizeBlocks (c : CoreState) : CoreState :=
  let c1 := pad { c with PHASE := .finalizing }
  let c2 := processBlock c1.BUF c1
  compress c2.C c2

/-- The digest FINALIZE returns: step F5 on the state F1 to F4 leave (R182). -/
def finalizeDigest (c : CoreState) : Block := extract (finalizeBlocks c)

/-- The state FINALIZE leaves: step F6, CLEAR, on the state F1 to F4 leave (R182). -/
def finalizeState (c : CoreState) : CoreState := clear (finalizeBlocks c)

/-! ## How a command ends -/

/-- `respond`: one response goes to the host; the core keeps nothing of it (R200, R36). -/
def State.respond (s : State) (r : Response) : State :=
  { s with outbox := s.outbox ++ [r] }

/-- A command completes: the core's new state, and `(OK, payload)` (R76). -/
def State.complete (s : State) (c : CoreState) (p : Payload) : Host.Outcome State Fault Refusal :=
  .next ({ s with core := c }.respond ⟨.ok, p⟩)

/-- `raise`: a command is rejected with an error status and an empty payload, and the core's state is not written. A rejection
is not a trap: nothing is saved, no mode changes, and there is nothing to return from (60_exceptions.md R205, R208, R209). -/
def State.reject (s : State) (st : Status) : Host.Outcome State Fault Refusal :=
  .next (s.respond ⟨st, .empty⟩)

end Sys2Proof.Machine
end

