-- ==== Sys2Proof/Machine/Identity.lean ====
section
/-! DEFINITION. The identity accessors (spec/40_commands.md R106, R107): they read and write no state of the core. -/

namespace Sys2Proof.Machine

/-- GET_NAME (R106): `(OK, ALG_NAME)`. -/
def execGetName (s : State) : Host.Outcome State Fault Refusal :=
  s.complete s.core (.name Config.algName)

/-- GET_OUTLEN (R107): `(OK, 16)`. -/
def execGetOutlen (s : State) : Host.Outcome State Fault Refusal :=
  s.complete s.core (.outLen Config.outLen)

end Sys2Proof.Machine
end

