-- ==== Sys2Proof/Machine/Sequence.lean ====
section
/-! DEFINITION. RESET and DIGEST (spec/40_commands.md R100, R105). -/

namespace Sys2Proof.Machine

/-- RESET (R100): CLEAR; `(OK, empty)`. Legal in every state. -/
def execReset (s : State) : Host.Outcome State Fault Refusal :=
  s.complete (clear s.core) .empty

/-- DIGEST (R105): FINALIZE, whose digest leaves in the response and whose CLEAR leaves the reset state; `(OK, D[0..15])`. -/
def execDigest (s : State) : Host.Outcome State Fault Refusal :=
  s.complete (finalizeState s.core) (.digest (finalizeDigest s.core))

end Sys2Proof.Machine
end

