-- ==== Sys2Proof/Machine/Operands.lean ====
section
/-! DEFINITION. UPDATE_BULK's operands: the bounds check, in integers that do not wrap, and the host input it reads
(spec/40_commands.md R103; spec/20_memory.md R51, R52; spec/60_exceptions.md R201, R202, R206). -/

namespace Sys2Proof.Machine

/-- `MemRead(i, 1)`: byte `i` of the host input space, if there is one (20_memory.md R52). -/
def memRead (input : List Byte) (i : Nat) : Option Byte := input[i]?

/-- The bytes IN[o..o+n-1] in ascending order, each once: what `MemRead(i, 1)` gives for `i` in o..o+n-1 when the bounds check
has passed (R52, R103; log entry 12). -/
def inputSlice (input : List Byte) (o n : Int) : List Byte :=
  (input.drop o.toNat).take n.toNat

/-- The bounds of R103 and R201, in mathematical integers (00_scope.md R10): `0 ≤ o`, `0 ≤ n` and `o + n ≤ IN_LEN`. -/
def inBounds (input : List Byte) (o n : Int) : Bool :=
  0 ≤ o && 0 ≤ n && o + n ≤ input.length

/-- UPDATE_BULK's operand check: NullInput before InvalidArgument (R206), else the bytes to append. Nothing of the core's state
is read or written. -/
def bulkOperands (input : Option (List Byte)) (o n : Int) : Except Status (List Byte) :=
  match input with
  | none => .error .nullInput
  | some m => if inBounds m o n then .ok (inputSlice m o n) else .error .invalidArgument

end Sys2Proof.Machine
end

