-- ==== Sys2Proof/Machine/Update.lean ====
section
/-! DEFINITION. The update commands, UPDATE_BYTE and UPDATE_BULK (spec/40_commands.md R102, R103). -/

namespace Sys2Proof.Machine

/-- UPDATE_BYTE (R102): APPEND(b); `(OK, empty)`. -/
def execUpdateByte (b : Byte) (s : State) : Host.Outcome State Fault Refusal :=
  s.complete (append b s.core) .empty

/-- UPDATE_BULK (R103): the operand check first, which writes nothing; then APPEND of IN[o..o+n-1] in order; `(OK, empty)`. -/
def execUpdateBulk (input : Option (List Byte)) (o n : Int) (s : State) : Host.Outcome State Fault Refusal :=
  match bulkOperands input o n with
  | .error st => s.reject st
  | .ok bs => s.complete (appendAll bs s.core) .empty

end Sys2Proof.Machine
end

