-- ==== Sys2Proof/Machine/Dispatch.lean ====
section
/-! DEFINITION. The dispatch of a decoded command to its meaning (spec/40_commands.md R108). -/

namespace Sys2Proof.Machine

def exec (i : Instr) (s : State) : Host.Outcome State Fault Refusal :=
  match i with
  | .reset => Sys2Proof.Machine.execReset s
  | .updateByte b => Sys2Proof.Machine.execUpdateByte b s
  | .updateBulk input o n => Sys2Proof.Machine.execUpdateBulk input o n s
  | .digest => Sys2Proof.Machine.execDigest s
  | .getName => Sys2Proof.Machine.execGetName s
  | .getOutlen => Sys2Proof.Machine.execGetOutlen s

end Sys2Proof.Machine
end

