-- ==== Sys2Proof/WellFormed.lean ====
section
/-! DEFINITION. Which terms of Instr stand for a command the encoding admits (spec/30_encoding.md R74, R75, R79): a data byte is
a byte by its type, and OFF and LEN are integers a 32-bit two's complement field can hold. -/

namespace Sys2Proof

/-- The integer fits a signed 32-bit operand: -2^31 .. 2^31-1 (R75; the assembler's check of R79). -/
def fitsInt32 (v : Int) : Bool := -2147483648 ≤ v && v ≤ 2147483647

/-- A well-formed command: OFF and LEN of UPDATE_BULK fit their fields; every other command is well formed. -/
def Instr.wellFormed : Instr → Bool
  | .reset => true
  | .updateByte _ => true
  | .updateBulk _ o n => fitsInt32 o && fitsInt32 n
  | .digest => true
  | .getName => true
  | .getOutlen => true

end Sys2Proof
end

