-- ==== Sys2Proof/Decode.lean ====
section
/-! DEFINITION. The decoder, total on every 32-bit word (spec/30_encoding.md R72), the encoder, and the opcode rows of R71. -/

namespace Sys2Proof

/-- `OP = w[3:0]` (R70). -/
def opField (w : CmdWord) : BitVec 4 := w.extractLsb' 0 4

/-- `RSVA = w[7:4]`, reserved, must be 0 (R70). -/
def rsvaField (w : CmdWord) : BitVec 4 := w.extractLsb' 4 4

/-- `DATA = w[15:8]` (R70). -/
def dataField (w : CmdWord) : Byte := w.extractLsb' 8 8

/-- `RSVB = w[31:16]`, reserved, must be 0 (R70). -/
def rsvbField (w : CmdWord) : BitVec 16 := w.extractLsb' 16 16

/-- `sint(v)`: a 32-bit operand read as a two's complement integer (00_scope.md R9). -/
abbrev sint (v : BitVec 32) : Int := v.toInt

/-- Why a word is `Illegal` (R73). The core answers all of them with the one status IllegalCommand (60_exceptions.md R203);
the reasons are the model's names for R73's three cases (DESIGN CHOICE, log entry 10). -/
inductive Illegal where
  /-- a bit of RSVA or RSVB is set -/
  | reservedBits
  /-- DATA is nonzero with an opcode other than UPDATE_BYTE -/
  | dataNotZero
  /-- OP is 0x0 or 0x7 to 0xF -/
  | reservedOpcode
deriving DecidableEq, Repr

/-- A command with no data byte: its word is legal only with DATA = 0 (R72). -/
def noData (w : CmdWord) (i : Instr) : Except Illegal Instr :=
  if dataField w = 0 then .ok i else .error .dataNotZero

/-- The decode function of R72, total on every word. The bundle is read for UPDATE_BULK only (R74), and its OFF and LEN are
read as `sint(OFF)` and `sint(LEN)` (R75). -/
def decode (w : CmdWord) (b : Bundle) : Except Illegal Instr :=
  if rsvbField w ≠ 0 ∨ rsvaField w ≠ 0 then .error .reservedBits
  else if opField w = 1 then noData w .reset
  else if opField w = 2 then .ok (.updateByte (dataField w))
  else if opField w = 3 then noData w (.updateBulk b.input (sint b.OFF) (sint b.LEN))
  else if opField w = 4 then noData w .digest
  else if opField w = 5 then noData w .getName
  else if opField w = 6 then noData w .getOutlen
  else .error .reservedOpcode

/-- The command word with opcode `op` and data byte `d`, the reserved fields zero: RSVB, DATA, RSVA, OP from bit 31 down (R70). -/
def mkWord (op : BitVec 4) (d : Byte) : CmdWord := (0#16 ++ d ++ 0#4 ++ op : BitVec (16 + 8 + 4 + 4))

/-- A command with no bundle of its own travels with `Bundle.nothing`, which is not read (R74). -/
def plainPacket (op : BitVec 4) (d : Byte) : Packet := ⟨mkWord op d, Bundle.nothing⟩

/-- The encoder: the word of R71 and, for UPDATE_BULK, the bundle of R74 with OFF and LEN in two's complement. -/
def encode : Instr → Packet
  | .reset => plainPacket 1 0
  | .updateByte b => plainPacket 2 b
  | .updateBulk input o n => ⟨mkWord 3 0, ⟨input, BitVec.ofInt 32 o, BitVec.ofInt 32 n⟩⟩
  | .digest => plainPacket 4 0
  | .getName => plainPacket 5 0
  | .getOutlen => plainPacket 6 0

/-- A row of R71's table of full words. -/
structure OpcodeRow where
  mnemonic : String
  match32 : CmdWord
  mask : CmdWord
deriving DecidableEq, Repr

/-- The word matches the row: `(w AND mask) = match` (R71). -/
def OpcodeRow.matchesWord (r : OpcodeRow) (w : CmdWord) : Bool := w &&& r.mask == r.match32

/-- R71's table of full words, as it stands there and in opcode_table.json. -/
def opcodeRows : List OpcodeRow :=
  [ ⟨"RESET", 0x00000001, 0xFFFFFFFF⟩,
    ⟨"UPDATE_BYTE", 0x00000002, 0xFFFF00FF⟩,
    ⟨"UPDATE_BULK", 0x00000003, 0xFFFFFFFF⟩,
    ⟨"DIGEST", 0x00000004, 0xFFFFFFFF⟩,
    ⟨"GET_NAME", 0x00000005, 0xFFFFFFFF⟩,
    ⟨"GET_OUTLEN", 0x00000006, 0xFFFFFFFF⟩ ]

/-- The mnemonic of a command (R71). -/
def Instr.mnemonic : Instr → String
  | .reset => "RESET"
  | .updateByte _ => "UPDATE_BYTE"
  | .updateBulk _ _ _ => "UPDATE_BULK"
  | .digest => "DIGEST"
  | .getName => "GET_NAME"
  | .getOutlen => "GET_OUTLEN"

/-- The command word whose low `nbits` bits are `w`'s and whose other bits are 0. -/
def tableWord (nbits w : Nat) : CmdWord := BitVec.ofNat 32 (w % 2 ^ nbits)

/-- The instruction the decoder reads from a word numbered as spec/opcode_table.json numbers its bits (bit 0 the least
significant, as R9 does). The table gives UPDATE_BULK's operands no bits: they are the bundle with nothing in it. -/
def decodeTableWord (nbits w : Nat) : Option Instr :=
  match decode (tableWord nbits w) Bundle.nothing with
  | .ok i => some i
  | .error _ => none

end Sys2Proof
end

