-- ==== Sys2Proof/Machine/Duties.lean ====
section
/-! DEFINITION. The host's duties (spec/70_reset_and_hazards.md R236; spec/20_memory.md R58, R61). The spec does not say what the core
does when one is broken and has a model refuse the run (spec/93_implementation_defined.md I5 to I9, I14). -/

namespace Sys2Proof.Machine

/-- The command word is UPDATE_BULK's, the one command with a host input space (R51, R71). -/
def isBulkWord (w : CmdWord) : Bool :=
  match decode w Bundle.nothing with
  | .ok (.updateBulk _ _ _) => true
  | _ => false

/-- The index lies in the window IN[sint(OFF) .. sint(OFF)+sint(LEN)-1] that duty 2 protects (R61). -/
def inWindow (b : Bundle) (i : Nat) : Bool :=
  sint b.OFF ≤ i && (i : Int) < sint b.OFF + sint b.LEN

/-- The duty that one act of the host breaks during the command `p`, if it breaks one. -/
def HostAct.breach (p : Packet) : HostAct → Option Refusal
  | .issuedCommand => some .overlappingCommand
  | .otherStream => some .sharedCore
  | .changedInput i => if isBulkWord p.word && inWindow p.bundle i then some .inputChanged else none
  | .inputNotPlain => if isBulkWord p.word && p.bundle.input.isSome then some .inputNotPlain else none
  | .assertedReset => some .resetInsideCommand

/-- The first duty the host breaks during the command; `none` when it keeps them all. -/
def Request.breach (r : Request) : Option Refusal :=
  r.conduct.findSome? (HostAct.breach r.packet)

end Sys2Proof.Machine
end

