-- ==== Sys2Proof/Machine/Step.lean ====
section
/-! DEFINITION. One step of the machine: the next event from the host, run to completion (spec/40_commands.md R108). -/

namespace Sys2Proof.Machine

/-- STEP(state, w, bundle) of R108: decode; an illegal word is rejected with IllegalCommand before any state is written (R203);
any other is executed. -/
def runPacket (p : Packet) (s : State) : Host.Outcome State Fault Refusal :=
  match decode p.word p.bundle with
  | .error _ => s.reject .illegalCommand
  | .ok i => exec i s

/-- One command of the host: refused when the host breaks a duty during it (R236), else run. -/
def runRequest (r : Request) (s : State) : Host.Outcome State Fault Refusal :=
  match r.breach with
  | some reason => .refused reason
  | none => runPacket r.packet s

/-- One event from the host. The reset input acts as CLEAR and, not being a command, returns no response (R231; log entry 3). -/
def runEvent (e : HostEvent) (s : State) : Host.Outcome State Fault Refusal :=
  match e with
  | .command r => runRequest r s
  | .resetInput => .next { s with core := clear s.core }

/-- One step: the next event of the host's script; with none left the core is idle and keeps its state (60_exceptions.md R218). -/
def step (s : State) : Host.Outcome State Fault Refusal :=
  match s.inbox with
  | [] => .next s
  | e :: rest => runEvent e { s with inbox := rest }

/-- A command the host issues while keeping its duties. -/
def HostEvent.plain (p : Packet) : HostEvent := .command ⟨p, []⟩

/-- The command whose word is the table word `w`, with nothing in its bundle, is the host's next: the very next step runs it.
The rest of the script follows it; nothing else changes. -/
def State.withFetchWord (s : State) (nbits w : Nat) : State :=
  { s with inbox := HostEvent.plain ⟨tableWord nbits w, Bundle.nothing⟩ :: s.inbox }

end Sys2Proof.Machine
end

