-- ==== Sys2Proof/Machine/Assembler.lean ====
section
/-! DEFINITION. The assembler of spec/30_encoding.md R79 and the pseudo-commands of R80, and the spec's way of writing bytes
(spec/00_scope.md R12, R13). Text is a list of characters; what R79 leaves open about it is log entry 13. -/

namespace Sys2Proof.Machine

/-! ## Bytes as text -/

/-- A character literal stands for its ASCII code (R13). -/
def charByte (c : Char) : Byte := BitVec.ofNat 8 c.toNat

/-- The character has an ASCII code. -/
def isAscii (c : Char) : Bool := c.toNat < 128

/-- Sixteen bytes written as 32 hex digits, high nibble first, byte 0 first (R12): here the digits are read as one number. -/
def blockOfHex (n : Nat) : Block :=
  Vector.ofFn fun i : Fin 16 => BitVec.ofNat 8 (n / 256 ^ (15 - i.val))

/-! ## Lines -/

/-- A line of R79 or R80, its operands as written. -/
inductive AsmLine where
  | reset
  /-- UPDATE_BYTE, or UPDATE, which is the same (R79) -/
  | updateByte (v : Int)
  /-- UPDATE_BULK: `none` is NULL, `some name` a named host byte sequence -/
  | updateBulk (input : Option String) (off len : Int)
  | digest
  | getName
  | getOutlen
  /-- `.word`: a raw command word, legal or not -/
  | word (w : Nat)
  /-- UPDATE_ALL (R80) -/
  | updateAll (input : String)
  /-- UPDATE_STR (R80) -/
  | updateStr (chars : List Char)
  /-- HASH (R80) -/
  | hash (input : String)
  /-- NOP (R80) -/
  | nop
deriving DecidableEq, Repr

/-- Why a line does not assemble. The first three are R79's own rejections. -/
inductive AsmError where
  /-- a byte outside 0..255 -/
  | byteRange
  /-- an offset or length outside -2^31 .. 2^31-1 -/
  | int32Range
  /-- no command or pseudo-command has this name or these operands -/
  | badLine
  /-- no host byte sequence has this name -/
  | unknownName
  /-- a raw word of more than 32 bits -/
  | wordRange
  /-- a character without an ASCII code -/
  | notAscii
deriving DecidableEq, Repr

/-- The named host byte sequences. -/
abbrev HostNames := List (String × List Byte)

/-- The sequence a name stands for. -/
def hostSequence (env : HostNames) (name : String) : Except AsmError (List Byte) :=
  match env.lookup name with
  | some m => .ok m
  | none => .error .unknownName

/-- UPDATE_BULK on an input: the assembler rejects only integers that do not fit; the core's own bounds check is left to run
time (R79). -/
def assembleBulk (input : Option (List Byte)) (o n : Int) : Except AsmError (List Packet) :=
  if fitsInt32 o && fitsInt32 n then .ok [encode (.updateBulk input o n)] else .error .int32Range

/-- UPDATE_BYTE with a byte 0..255 (R79). -/
def assembleByte (v : Int) : Except AsmError (List Packet) :=
  if 0 ≤ v ∧ v ≤ 255 then .ok [encode (.updateByte (BitVec.ofInt 8 v))] else .error .byteRange

/-- The commands a line stands for (R79, R80). -/
def assembleLine (env : HostNames) : AsmLine → Except AsmError (List Packet)
  | .reset => .ok [encode .reset]
  | .updateByte v => assembleByte v
  | .updateBulk none o n => assembleBulk none o n
  | .updateBulk (some name) o n => (hostSequence env name).bind fun m => assembleBulk (some m) o n
  | .digest => .ok [encode .digest]
  | .getName => .ok [encode .getName]
  | .getOutlen => .ok [encode .getOutlen]
  | .word w => if w < 2 ^ 32 then .ok [⟨BitVec.ofNat 32 w, Bundle.nothing⟩] else .error .wordRange
  | .updateAll name => (hostSequence env name).bind fun m => assembleBulk (some m) 0 m.length
  | .updateStr chars =>
    if chars.all isAscii then .ok (chars.map fun c => encode (.updateByte (charByte c))) else .error .notAscii
  | .hash name =>
    (hostSequence env name).bind fun m =>
      (assembleBulk (some m) 0 m.length).map fun ps => encode .reset :: ps ++ [encode .digest]
  | .nop => .ok [encode .getOutlen]

/-! ## Reading a line of text -/

/-- The apostrophe, the double quote and the semicolon. -/
def apostrophe : Char := Char.ofNat 39
def doubleQuote : Char := Char.ofNat 34
def semicolon : Char := Char.ofNat 59

/-- Drop a comment: from the first semicolon outside a string or character literal (DESIGN CHOICE, log entry 13) to the end of the
line. `inString` says that a double quote is open; the one that closes it ends the literal, so a semicolon right after it starts a
comment. -/
def dropComment (inString : Bool) : List Char → List Char
  | [] => []
  | a :: rest =>
    if inString then a :: dropComment (a ≠ doubleQuote) rest
    else if a = semicolon then []
    else
      match rest with
      | b :: c :: after =>
        if a = apostrophe ∧ c = apostrophe then a :: b :: c :: dropComment false after
        else a :: dropComment (a = doubleQuote) (b :: c :: after)
      | short => a :: dropComment (a = doubleQuote) short

/-- A line without the blanks at its two ends. -/
def trim (cs : List Char) : List Char :=
  ((cs.dropWhile Char.isWhitespace).reverse.dropWhile Char.isWhitespace).reverse

/-- The value of a decimal digit. -/
def decDigit (c : Char) : Option Nat :=
  if '0' ≤ c ∧ c ≤ '9' then some (c.toNat - 48) else none

/-- The value of a hexadecimal digit, of either case. -/
def hexDigit (c : Char) : Option Nat :=
  if 'a' ≤ c ∧ c ≤ 'f' then some (c.toNat - 87)
  else if 'A' ≤ c ∧ c ≤ 'F' then some (c.toNat - 55)
  else decDigit c

/-- A number of one or more digits. -/
def number (base : Nat) (digit : Char → Option Nat) (cs : List Char) : Option Nat :=
  if cs = [] then none
  else cs.foldl (fun v c => v.bind fun n => (digit c).map fun d => n * base + d) (some 0)

/-- A signed decimal integer, with a minus sign or none. R79 does not say whether a plus sign may lead; the model does not take one
(DESIGN CHOICE, log entry 13). -/
def signedInt : List Char → Option Int
  | '-' :: cs => (number 10 decDigit cs).map fun n => -(n : Int)
  | cs => (number 10 decDigit cs).map fun n => (n : Int)

/-- `0x` and hexadecimal digits. -/
def hexNumber : List Char → Option Nat
  | '0' :: 'x' :: cs => number 16 hexDigit cs
  | _ => none

/-- `<byte>`: 0xNN, decimal, or a character literal (R79). -/
def byteOperand (cs : List Char) : Option Int :=
  match cs with
  | [a, c, b] =>
    if a = apostrophe ∧ b = apostrophe ∧ isAscii c then some c.toNat
    else ((hexNumber cs).map fun n => (n : Int)).or (signedInt cs)
  | _ => ((hexNumber cs).map fun n => (n : Int)).or (signedInt cs)

/-- Cut at each occurrence of a separator. -/
def cutAt (sep : Char) : List Char → List (List Char)
  | [] => [[]]
  | c :: cs =>
    match cutAt sep cs with
    | [] => [[c]]
    | part :: parts => if c = sep then [] :: part :: parts else (c :: part) :: parts

/-- A string between double quotes. -/
def quoted (cs : List Char) : Option (List Char) :=
  match cs with
  | [] => none
  | q :: rest =>
    if q = doubleQuote ∧ rest.getLast? = some doubleQuote ∧ doubleQuote ∉ rest.dropLast then some rest.dropLast else none

/-- `<in>`: NULL or a name (R79). -/
def inputOperand (cs : List Char) : Option String :=
  if String.ofList cs = "NULL" then none else some (String.ofList cs)

/-- The `<in>` of UPDATE_ALL and HASH: a name that is there. R79 lets `<in>` be NULL, but R80 gives `|in|` for a named sequence only;
the model rejects NULL here (DESIGN CHOICE, log entry 13). -/
def nameOperand (cs : List Char) : Option String :=
  if cs = [] then none else inputOperand cs

/-- UPDATE_BULK's three operands. -/
def bulkLine (cs : List Char) : Option AsmLine :=
  match (cutAt ',' cs).map trim with
  | [i, o, n] =>
    if i = [] then none
    else (signedInt o).bind fun o => (signedInt n).map fun n => .updateBulk (inputOperand i) o n
  | _ => none

/-- The line with a given mnemonic, in capitals, and operand text. -/
def lineOf (mnemonic : String) (cs : List Char) : Option AsmLine :=
  if mnemonic = "UPDATE_BYTE" ∨ mnemonic = "UPDATE" then (byteOperand cs).map .updateByte
  else if mnemonic = "UPDATE_BULK" then bulkLine cs
  else if mnemonic = ".WORD" then (hexNumber cs).map .word
  else if mnemonic = "UPDATE_ALL" then (nameOperand cs).map .updateAll
  else if mnemonic = "UPDATE_STR" then (quoted cs).map .updateStr
  else if mnemonic = "HASH" then (nameOperand cs).map .hash
  else if cs ≠ [] then none
  else if mnemonic = "RESET" then some .reset
  else if mnemonic = "DIGEST" then some .digest
  else if mnemonic = "GET_NAME" then some .getName
  else if mnemonic = "GET_OUTLEN" then some .getOutlen
  else if mnemonic = "NOP" then some .nop
  else none

/-- Read one line of text: `ok none` for a line that holds only blanks or a comment. Mnemonics are case-insensitive (R79);
that `.word`, the alias UPDATE and the pseudo-commands of R80 are too is the model's choice (DESIGN CHOICE, log entry 13). -/
def readLine (text : List Char) : Except AsmError (Option AsmLine) :=
  match trim (dropComment false text) with
  | [] => .ok none
  | c :: cs =>
    let head := (c :: cs).takeWhile fun x => !x.isWhitespace
    let rest := (c :: cs).dropWhile fun x => !x.isWhitespace
    match lineOf (String.ofList (head.map Char.toUpper)) (trim rest) with
    | some l => .ok (some l)
    | none => .error .badLine

/-- The commands of one line of text. -/
def assembleTextLine (env : HostNames) (text : List Char) : Except AsmError (List Packet) :=
  match readLine text with
  | .error e => .error e
  | .ok none => .ok []
  | .ok (some l) => assembleLine env l

/-- The commands of a text, one command per line (R79); the first line that does not assemble rejects it. -/
def assembleLines (env : HostNames) : List (List Char) → Except AsmError (List Packet)
  | [] => .ok []
  | t :: ts =>
    match assembleTextLine env t with
    | .error e => .error e
    | .ok ps => (assembleLines env ts).map fun qs => ps ++ qs

/-- The commands of a whole text. -/
def assembleText (env : HostNames) (text : String) : Except AsmError (List Packet) :=
  assembleLines env (cutAt '\n' text.toList)

/-- A host that issues the commands in order and keeps its duties (R236). -/
def script (ps : List Packet) : List HostEvent := ps.map HostEvent.plain

end Sys2Proof.Machine
end

