-- ==== Sys2Proof/Machine/Flags.lean ====
section
/-! DEFINITION. The core has no flags, condition codes or predicates (spec/10_state.md R23). Its only status is the response status,
returned with every command and not stored (spec/60_exceptions.md R200); here are its 2-bit codes. -/

namespace Sys2Proof.Machine

/-- The 2-bit status code (R200). -/
def Status.code : Status → BitVec 2
  | .ok => 0
  | .invalidArgument => 1
  | .nullInput => 2
  | .illegalCommand => 3

end Sys2Proof.Machine
end

