-- ==== Sys2Proof/Machine/System.lean ====
section
/-! DEFINITION. A system of NUM_INSTANCES cores (spec/60_exceptions.md R215; spec/20_memory.md R63): each has its own state, and all
share only the S-table, which is a constant. -/

namespace Sys2Proof.Machine

/-- The instances of a system, told apart by how the system reaches each command port, here a position
(log entry 18). -/
structure System where
  instances : Vector State Config.numInstances
deriving DecidableEq, Repr

/-- Power-on: every instance in the reset state (R215). -/
def System.reset : System := ⟨Vector.replicate Config.numInstances State.reset⟩

/-- One step of the instance at `k`. -/
def System.stepAt (k : Fin Config.numInstances) (y : System) : Host.Outcome System Fault Refusal :=
  match step y.instances[k] with
  | .next s => .next ⟨y.instances.set k s⟩
  | .fault r => .fault r
  | .refused r => .refused r

end Sys2Proof.Machine
end

