-- ==== Sys2Proof/Safety.lean ====
section
/-! DEFINITION. What a safe run is, in the terms the statements use: the state between commands, the host's duties, the message a core
has taken in, and which states a host can tell apart (spec/10_state.md R26, R31, R36; spec/41_block_buffer.md R134, R136;
spec/43_finalization.md R184; spec/70_reset_and_hazards.md R239). -/

namespace Sys2Proof.Machine

/-- The state between commands: PHASE = Accumulating (R26) and L = C[15] (R31). BLEN < 16 (R28) holds by its type. -/
def CoreState.BetweenCommands (c : CoreState) : Prop :=
  c.PHASE = .accumulating ∧ c.L = c.C[15]

/-- The host keeps its duties during the event (R236). -/
def HostEvent.keepsDuties : HostEvent → Bool
  | .command r => r.breach.isNone
  | .resetInput => true

/-- The bytes a command appends to the message (R104, R134): UPDATE_BYTE's byte, the bytes of an UPDATE_BULK that passes its checks,
and none for a rejected, an identity or a clearing command. -/
def packetFedBytes (p : Packet) : List Byte :=
  match decode p.word p.bundle with
  | .error _ => []
  | .ok .reset => []
  | .ok (.updateByte b) => [b]
  | .ok (.updateBulk input o n) =>
    match bulkOperands input o n with
    | .error _ => []
    | .ok bs => bs
  | .ok .digest => []
  | .ok .getName => []
  | .ok .getOutlen => []

/-- The command runs CLEAR (R231): RESET or DIGEST. -/
def packetClears (p : Packet) : Bool :=
  match decode p.word p.bundle with
  | .error _ => false
  | .ok .reset => true
  | .ok (.updateByte _) => false
  | .ok (.updateBulk _ _ _) => false
  | .ok .digest => true
  | .ok .getName => false
  | .ok .getOutlen => false

/-- The bytes an event appends to the message. -/
def HostEvent.fedBytes : HostEvent → List Byte
  | .command r => packetFedBytes r.packet
  | .resetInput => []

/-- An event that may come in the middle of a message (R104): the host keeps its duties and nothing runs CLEAR. -/
def HostEvent.continuesMessage : HostEvent → Bool
  | .command r => r.breach.isNone && !packetClears r.packet
  | .resetInput => false

/-- A run that goes on: a next state, neither a fault nor a refusal. -/
def Completes (o : Host.Outcome State Fault Refusal) : Prop := ∃ t, o = .next t

/-- Every core reset value of R35 but BUF's: the fields on which `c` is the reset state. -/
def CoreState.IsReset (c : CoreState) : Prop :=
  c.BLEN = 0 ∧ c.C = Vector.replicate 16 0 ∧ c.L = 0 ∧ c.X = Vector.replicate 48 0 ∧ c.PHASE = .accumulating

/-- Two core states differ at most in the stale bytes BUF[BLEN..15] (R104, R136). -/
def CoreState.SameButStale (c d : CoreState) : Prop :=
  c.BLEN = d.BLEN ∧ c.C = d.C ∧ c.L = d.L ∧ c.X = d.X ∧ c.PHASE = d.PHASE ∧ ∀ i : Fin 16, i < c.BLEN → c.BUF[i] = d.BUF[i]

/-- Two states that agree in everything a host can ever observe: cores that differ at most in stale bytes, the same script and
the same responses so far (R36). -/
def State.SameForHost (s t : State) : Prop :=
  s.core.SameButStale t.core ∧ s.inbox = t.inbox ∧ s.outbox = t.outbox

/-- Outcomes a host cannot tell apart: next states that agree as above, or the same refusal. -/
def OutcomeSameForHost : Host.Outcome State Fault Refusal → Host.Outcome State Fault Refusal → Prop
  | .next s, .next t => s.SameForHost t
  | .refused a, .refused b => a = b
  | _, _ => False

/-! ## The lookups of one call (42_checksum_compression.md R158) -/

/-- One lookup of S, noted in the list of the indices looked up so far. The loops below are twins of the core's own (the model's form,
log entry 17) that look S up by this operation and in no other way. -/
def notedSbox (seen : List Byte) (i : Byte) : List Byte × Byte := (seen ++ [i], sbox i)

/-- One position of CKS_UPDATE (R152), its lookup noted. The triple is (indices, C, l). -/
def cksStepNoted (M : Block) (q : List Byte × Block × Byte) (i : Fin 16) : List Byte × Block × Byte :=
  let r := notedSbox q.1 (M[i] ^^^ q.2.2)
  let l := q.2.1[i] ^^^ r.2
  (r.1, q.2.1.set i l, l)

/-- CKS_UPDATE's loop, with the list of the S indices it looks up. -/
def cksLookups (M : Block) (C : Block) (l : Byte) : List Byte × Block × Byte :=
  (List.finRange 16).foldl (cksStepNoted M) ([], C, l)

/-- One position of a pass (R156), its lookup noted. The triple is (indices, X, t). -/
def passStepNoted (q : List Byte × Workspace × Byte) (k : Fin 48) : List Byte × Workspace × Byte :=
  let r := notedSbox q.1 q.2.2
  let t := q.2.1[k] ^^^ r.2
  (r.1, q.2.1.set k t, t)

/-- One pass, with the list of the S indices looked up so far. -/
def passLookups (q : List Byte × Workspace × Byte) (j : Nat) : List Byte × Workspace × Byte :=
  let r := (List.finRange 48).foldl passStepNoted q
  (r.1, r.2.1, r.2.2 + BitVec.ofNat 8 j)

/-- The 18 passes, with the list of the S indices they look up. -/
def compressLookups (X : Workspace) : List Byte × Workspace × Byte :=
  (List.range 18).foldl passLookups ([], X, 0)

/-! ## Messages -/

/-- The `q`-th block of a message, counted from 0 (R134); bytes past the end do not matter and read as 0 here. -/
def messageBlock (m : List Byte) (q : Nat) : Block :=
  Vector.ofFn fun i : Fin 16 => m.getD (16 * q + i.val) 0

/-- PROCESS_BLOCK on the first `q` blocks of a message, in order (R134). -/
def processBlocks (m : List Byte) (q : Nat) (c : CoreState) : CoreState :=
  (List.range q).foldl (fun c k => processBlock (messageBlock m k) c) c

/-- A message with its padding: `P = 16 - |m| mod 16` bytes of value P (R181). -/
def paddedMessage (m : List Byte) : List Byte :=
  let p := 16 - m.length % 16
  m ++ List.replicate p (BitVec.ofNat 8 p)

/-- The digest of a message as R184 gives it, with no buffer: PROCESS_BLOCK on every block of the padded message from the reset
state, COMPRESS on the checksum, and the first third of the workspace. -/
def digestOf (m : List Byte) : Block :=
  let c := processBlocks (paddedMessage m) (m.length / 16 + 1) CoreState.reset
  extract (compress c.C c)

end Sys2Proof.Machine
end

