-- ==== Sys2Proof/Certificates/Slice0/Obligations.lean ====
section
/-! DEFINITION. The statements for the provers, from the numbered rules of spec/. None rests on a value the model chose, but where its
docstring says so. `Sys2Proof.core.run n s` is `n` steps from `s`, stopping at the first fault or refusal. -/

open Sys2Proof Sys2Proof.Machine

/-! ## Commands: encoding and decoding -/

/-- R71: a word decodes to a command exactly when it matches a row of the table, the row of that command, and no two rows both
match a word. -/
def Obligations.DecodeMatchesOneTableRow : Prop :=
  ∀ (w : CmdWord) (b : Bundle),
    (∀ r ∈ opcodeRows, r.matchesWord w = true ↔ ∃ i, decode w b = .ok i ∧ i.mnemonic = r.mnemonic) ∧
    ((∃ i, decode w b = .ok i) ↔ ∃ r ∈ opcodeRows, r.matchesWord w = true) ∧
    (∀ r ∈ opcodeRows, ∀ r' ∈ opcodeRows, r.matchesWord w = true → r'.matchesWord w = true → r = r')

/-- R73 and R72, in arithmetic on the word as a number: the illegal words are those with a set bit in w[31:16] or w[7:4], with OP
0 or 7 to 15, or with a nonzero DATA and an OP other than 2. -/
def Obligations.IllegalWordsExactly : Prop :=
  ∀ (w : CmdWord) (b : Bundle),
    (∃ e, decode w b = .error e) ↔
      (w.toNat / 2 ^ 16 ≠ 0 ∨ w.toNat / 2 ^ 4 % 2 ^ 4 ≠ 0 ∨ w.toNat % 2 ^ 4 = 0 ∨ 7 ≤ w.toNat % 2 ^ 4 ∨
        (w.toNat / 2 ^ 8 % 2 ^ 8 ≠ 0 ∧ w.toNat % 2 ^ 4 ≠ 2))

/-- R74: the bundle is read for UPDATE_BULK only; of every other word, the decoder's answer is the same whatever the bundle. -/
def Obligations.BundleReadOnlyByBulk : Prop :=
  ∀ (w : CmdWord) (b b' : Bundle),
    (w ≠ 3 → decode w b = decode w b') ∧
    (w = 3 → decode w b = .ok (.updateBulk b.input b.OFF.toInt b.LEN.toInt))

/-- Decoding the encoding of a well-formed command, with every operand at every value the encoding admits, gives the command back
(R70, R71, R74, R75). -/
def Obligations.DecodeOfEncode : Prop :=
  ∀ i : Instr, i.wellFormed = true → decode (encode i).word (encode i).bundle = .ok i

/-- A word and bundle that decode to a command are that command's encoding, but for a bundle that is not read; and the command is
well formed. So each word has one meaning (R71, R74). -/
def Obligations.EncodeOfDecode : Prop :=
  ∀ (w : CmdWord) (b : Bundle) (i : Instr), decode w b = .ok i →
    i.wellFormed = true ∧ (encode i).word = w ∧ (i.mnemonic = "UPDATE_BULK" → (encode i).bundle = b)

/-- Words written out from R71's table, as 95_test_vectors.md section 2.1 lists them. -/
def Obligations.DecodeOfWrittenWords : Prop :=
  ∀ b : Bundle,
    decode 0b00000000000000000000000000000001#32 b = .ok .reset ∧
    decode 0b00000000000000000110000100000010#32 b = .ok (.updateByte 0x61) ∧
    decode 0b00000000000000001111111100000010#32 b = .ok (.updateByte 0xff) ∧
    decode 0b00000000000000000000000000000100#32 b = .ok .digest ∧
    decode 0b00000000000000000000000000000101#32 b = .ok .getName ∧
    decode 0b00000000000000000000000000000110#32 b = .ok .getOutlen ∧
    (∃ e, decode 0x00000000#32 b = .error e) ∧
    (∃ e, decode 0x00000101#32 b = .error e) ∧
    (∃ e, decode 0x00010002#32 b = .error e) ∧
    (∃ e, decode 0x80000004#32 b = .error e)

/-! ## A step runs the decoded command -/

/-- R108: when the host's next event is a command during which it keeps its duties and whose word decodes to `i`, the step is exec
of `i` on the same core, with that event taken off the host's script. -/
def Obligations.StepRunsDecodedCommand : Prop :=
  ∀ (s : State) (r : Request) (rest : List HostEvent) (i : Instr),
    s.inbox = .command r :: rest → r.breach = none → decode r.packet.word r.packet.bundle = .ok i →
    step s = exec i { s with inbox := rest }

/-- R203: an illegal word is answered with IllegalCommand and an empty payload, the core is not written, and the bundle is not
read. -/
def Obligations.IllegalWordAnswered : Prop :=
  ∀ (s : State) (r : Request) (rest : List HostEvent) (e : Illegal),
    s.inbox = .command r :: rest → r.breach = none → decode r.packet.word r.packet.bundle = .error e →
    step s = .next ⟨s.core, rest, s.outbox ++ [⟨.illegalCommand, .empty⟩]⟩ ∧
    ∀ b, decode r.packet.word b = .error e

/-- A table word put where the next command is taken from is the very next command to run. -/
def Obligations.FetchWordRunsNext : Prop :=
  ∀ (s : State) (nbits w : Nat) (i : Instr), decodeTableWord nbits w = some i →
    step (s.withFetchWord nbits w) = exec i s

/-- R218: with nothing issued the core is idle and keeps its state. -/
def Obligations.IdleKeepsState : Prop :=
  ∀ s : State, s.inbox = [] → step s = .next s

/-- R231: the platform's reset input, taken between commands, has the effect of CLEAR. That it returns no response is the
model's reading (log entry 3). -/
def Obligations.ResetInputClears : Prop :=
  ∀ (s : State) (rest : List HostEvent), s.inbox = .resetInput :: rest →
    ∃ t, step s = .next t ∧ t.core.IsReset ∧ t.core.BUF = s.core.BUF ∧ t.inbox = rest ∧ t.outbox = s.outbox

/-- R230 and R35: the state at power-on. BUF's value there is the model's choice (log entry 2) and is not stated. -/
def Obligations.PowerOnState : Prop :=
  State.reset.core.BLEN = 0 ∧ (∀ i : Fin 16, State.reset.core.C[i] = 0) ∧ State.reset.core.L = 0 ∧
    (∀ k : Fin 48, State.reset.core.X[k] = 0) ∧ State.reset.core.PHASE = .accumulating

/-! ## What each command does -/

/-- R100: the word 0x00000001 is RESET, whatever bundle travels with it, and in every state RESET clears BLEN, C, L, X and PHASE and answers (OK, empty). BUF is left as it is, a pending partial block is
not processed, and a second RESET changes nothing. -/
def Obligations.ResetClearsCore : Prop :=
  (∀ b : Bundle, decode 0x00000001 b = .ok .reset) ∧
  ∀ s : State, ∃ t, exec .reset s = .next t ∧
    t.core = ⟨s.core.BUF, 0, Vector.replicate 16 0, 0, Vector.replicate 48 0, .accumulating⟩ ∧
    t.inbox = s.inbox ∧ t.outbox = s.outbox ++ [⟨.ok, .empty⟩] ∧
    ∃ u, exec .reset t = .next u ∧ u.core = t.core

/-- R102 and R131: a word with OP = 2 and no reserved bit set is UPDATE_BYTE of its DATA byte. UPDATE_BYTE stores the byte at BUF[BLEN]. With room it only counts up; the byte that fills the block has the
block processed at once and leaves BLEN = 0. It answers (OK, empty). Nothing else of the core changes. -/
def Obligations.UpdateByteAppends : Prop :=
  (∀ (b : Byte) (bundle : Bundle), decode (0x0000#16 ++ b ++ 0x02#8) bundle = .ok (.updateByte b)) ∧
  ∀ (b : Byte) (s : State),
    (s.core.BLEN ≠ 15 →
      exec (.updateByte b) s = .next
        ⟨{ s.core with BUF := s.core.BUF.set s.core.BLEN b, BLEN := s.core.BLEN + 1 }, s.inbox,
          s.outbox ++ [⟨.ok, .empty⟩]⟩) ∧
    (s.core.BLEN = 15 →
      exec (.updateByte b) s = .next
        ⟨{ processBlock (s.core.BUF.set 15 b) s.core with BUF := s.core.BUF.set 15 b, BLEN := 0 }, s.inbox,
          s.outbox ++ [⟨.ok, .empty⟩]⟩)

/-- R103 and R52: an UPDATE_BULK whose operands are in bounds appends the bytes MemRead gives at o, o+1, ..., o+n-1, in that order and
each once, leaves BLEN = (b + n) mod 16, and answers (OK, empty); with n = 0 it changes nothing. -/
def Obligations.UpdateBulkAppends : Prop :=
  ∀ (m : List Byte) (o n : Int) (s : State), 0 ≤ o → 0 ≤ n → o + n ≤ m.length →
    ∃ bs : List Byte, bs.length = n.toNat ∧ (∀ k < n.toNat, bs[k]? = memRead m (o.toNat + k)) ∧
      exec (.updateBulk (some m) o n) s = .next ⟨appendAll bs s.core, s.inbox, s.outbox ++ [⟨.ok, .empty⟩]⟩ ∧
      ((appendAll bs s.core).BLEN : Nat) = (s.core.BLEN + n.toNat) % 16 ∧
      (n = 0 → appendAll bs s.core = s.core)

/-- An in-bounds UPDATE_BULK leaves the core as the UPDATE_BYTE commands of its bytes, one after the other, would
(R103; 20_memory.md R56). -/
def Obligations.UpdateBulkIsByteUpdates : Prop :=
  ∀ (m : List Byte) (o n : Int) (s : State), 0 ≤ o → 0 ≤ n → o + n ≤ m.length →
    ∃ t u, exec (.updateBulk (some m) o n) s = .next t ∧
      Sys2Proof.core.run n.toNat
        { s with inbox := script (((List.range n.toNat).filterMap fun k => memRead m (o.toNat + k)).map
          fun b => encode (.updateByte b)) } = .next u ∧
      u.core = t.core ∧ u.inbox = []

/-- R201: UPDATE_BULK with an input answers InvalidArgument exactly when the offset or the length is negative or their sum, an
integer that does not wrap, exceeds the input's length; the payload is then empty and nothing is written. -/
def Obligations.InvalidArgumentExactly : Prop :=
  ∀ (m : List Byte) (o n : Int) (s : State),
    exec (.updateBulk (some m) o n) s = .next ⟨s.core, s.inbox, s.outbox ++ [⟨.invalidArgument, .empty⟩]⟩ ↔
      (o < 0 ∨ n < 0 ∨ o + n > m.length)

/-- R202: UPDATE_BULK with no input answers NullInput whatever OFF and LEN are, with an empty payload, and nothing is written; no
other command and no other operand is answered so. -/
def Obligations.NullInputExactly : Prop :=
  ∀ (i : Instr) (s : State),
    exec i s = .next ⟨s.core, s.inbox, s.outbox ++ [⟨.nullInput, .empty⟩]⟩ ↔ ∃ o n, i = .updateBulk none o n

/-- R206: one status per command, the first that applies of IllegalCommand, NullInput, InvalidArgument, and OK when none does
(R204); whichever error it is, the core is as it was before the command. -/
def Obligations.StatusPriority : Prop :=
  ∀ (s : State) (r : Request) (rest : List HostEvent), s.inbox = .command r :: rest → r.breach = none →
    ∃ t resp, step s = .next t ∧ t.outbox = s.outbox ++ [resp] ∧ (resp.status ≠ .ok → t.core = s.core) ∧
      resp.status =
        if (opcodeRows.all fun row => !row.matchesWord r.packet.word) then .illegalCommand
        else if r.packet.word ≠ 3 then .ok
        else match r.packet.bundle.input with
          | none => .nullInput
          | some m =>
            if r.packet.bundle.OFF.toInt < 0 ∨ r.packet.bundle.LEN.toInt < 0 ∨
                r.packet.bundle.OFF.toInt + r.packet.bundle.LEN.toInt > m.length
            then .invalidArgument else .ok

/-- R105, R180 to R183 and R26: DIGEST enters Finalizing, pads BUF, runs PROCESS_BLOCK on the padded block and COMPRESS on the checksum
that leaves (with no checksum update); the state these steps leave, from which the digest is extracted, is the model's own state before
CLEAR and is still in Finalizing. DIGEST answers (OK, X[0..15]) and clears: all but BUF, which keeps the padded block. -/
def Obligations.DigestSequence : Prop :=
  ∀ s : State, ∃ (M D : Block) (c1 c2 c3 : CoreState),
    (∀ i : Fin 16, M[i] = if i.val < s.core.BLEN.val then s.core.BUF[i] else BitVec.ofNat 8 (16 - s.core.BLEN.val)) ∧
    c1 = { s.core with BUF := M, PHASE := .finalizing } ∧
    c2 = processBlock M c1 ∧
    c3 = compress c2.C c2 ∧
    c3 = finalizeBlocks s.core ∧
    c3.PHASE = .finalizing ∧
    (∀ i : Fin 16, D[i] = c3.X[i.val]) ∧
    exec .digest s = .next
      ⟨⟨M, 0, Vector.replicate 16 0, 0, Vector.replicate 48 0, .accumulating⟩, s.inbox, s.outbox ++ [⟨.ok, .digest D⟩]⟩

/-- R106: the word 0x00000005 is GET_NAME, whatever bundle travels with it. GET_NAME answers (OK, ALG_NAME) in every state, whatever ALG_NAME is, and writes nothing. -/
def Obligations.GetNameAnswers : Prop :=
  (∀ b : Bundle, decode 0x00000005 b = .ok .getName) ∧
  ∀ s : State, exec .getName s = .next ⟨s.core, s.inbox, s.outbox ++ [⟨.ok, .name Config.algName⟩]⟩

/-- R107: the word 0x00000006 is GET_OUTLEN, whatever bundle travels with it. GET_OUTLEN answers (OK, 16) in every state and writes nothing. -/
def Obligations.GetOutlenAnswers : Prop :=
  (∀ b : Bundle, decode 0x00000006 b = .ok .getOutlen) ∧
  ∀ s : State, exec .getOutlen s = .next ⟨s.core, s.inbox, s.outbox ++ [⟨.ok, .outLen 16⟩]⟩

/-- The frame of the two update commands: PHASE, the script, the responses before the new one, and every byte of BUF but those the
appended bytes go to, at (BLEN + j) mod 16, are unchanged; and C, L and X are unchanged when the bytes do not fill the
block. The appended bytes' number is `k`: 1, `n`, or 0 for a rejected UPDATE_BULK. -/
def Obligations.UpdateFrame : Prop :=
  ∀ (i : Instr) (s t : State) (k : Nat),
    ((∃ b, i = .updateByte b ∧ k = 1) ∨
      (∃ m o n, i = .updateBulk (some m) o n ∧ inBounds m o n = true ∧ k = n.toNat) ∨
      (∃ m o n, i = .updateBulk (some m) o n ∧ inBounds m o n = false ∧ k = 0) ∨
      (∃ o n, i = .updateBulk none o n ∧ k = 0)) →
    exec i s = .next t →
    t.core.PHASE = s.core.PHASE ∧ t.inbox = s.inbox ∧ (∃ resp, t.outbox = s.outbox ++ [resp]) ∧
    (∀ p : Fin 16, (∀ j < k, (s.core.BLEN.val + j) % 16 ≠ p.val) → t.core.BUF[p] = s.core.BUF[p]) ∧
    (s.core.BLEN.val + k < 16 → t.core.C = s.core.C ∧ t.core.L = s.core.L ∧ t.core.X = s.core.X)

/-! ## Responses and rejections -/

/-- R76: every command returns one response, and its payload is empty when the status is not OK; on OK it is 16 bytes for DIGEST,
ALG_NAME for GET_NAME, 16 for GET_OUTLEN and empty for RESET, UPDATE_BYTE and UPDATE_BULK. -/
def Obligations.ResponseOfEveryCommand : Prop :=
  ∀ (s : State) (r : Request) (rest : List HostEvent), s.inbox = .command r :: rest → r.breach = none →
    ∃ t resp, step s = .next t ∧ t.outbox = s.outbox ++ [resp] ∧ t.inbox = rest ∧
      (resp.status ≠ .ok → resp.payload = .empty) ∧
      (resp.status = .ok → ∃ i, decode r.packet.word r.packet.bundle = .ok i ∧
        ((i = .digest → ∃ D, resp.payload = .digest D) ∧ (i = .getName → resp.payload = .name Config.algName) ∧
          (i = .getOutlen → resp.payload = .outLen 16) ∧ (i = .reset → resp.payload = .empty) ∧
          (∀ b, i = .updateByte b → resp.payload = .empty) ∧
          (∀ input o n, i = .updateBulk input o n → resp.payload = .empty)))

/-- R200: the 2-bit status codes. -/
def Obligations.StatusCodes : Prop :=
  Status.ok.code = 0 ∧ Status.invalidArgument.code = 1 ∧ Status.nullInput.code = 2 ∧ Status.illegalCommand.code = 3

/-- R205: after a rejected command the core is in exactly the state it was in before it. -/
def Obligations.RejectionLeavesCore : Prop :=
  ∀ (s t : State) (resp : Response), step s = .next t → t.outbox = s.outbox ++ [resp] → resp.status ≠ .ok →
    t.core = s.core

/-- R24 and R36: only a DIGEST's response depends on the core's state; every other command answers the same from any two cores. -/
def Obligations.OnlyDigestShowsState : Prop :=
  ∀ (i : Instr) (s t : State), i ≠ .digest →
    ∃ s' t' resp, exec i s = .next s' ∧ exec i t = .next t' ∧
      s'.outbox = s.outbox ++ [resp] ∧ t'.outbox = t.outbox ++ [resp]

/-- R204 and R237: while the host keeps its duties every step completes, so every run of any length does. -/
def Obligations.DutifulRunsComplete : Prop :=
  ∀ (n : Nat) (s : State), (∀ e ∈ s.inbox, e.keepsDuties = true) →
    ∃ t, Sys2Proof.core.run n s = .next t ∧ t.inbox = s.inbox.drop n

/-! ## Host duties -/

/-- R236, R61 and 93_implementation_defined.md I5 to I9: a run in which the host breaks a duty is refused. The byte range of duty 2 is
IN[sint(OFF) .. sint(OFF)+sint(LEN)-1] of an UPDATE_BULK; duty 4 is about a present input of an UPDATE_BULK. -/
def Obligations.BrokenDutyRefused : Prop :=
  ∀ (s : State) (r : Request) (rest : List HostEvent), s.inbox = .command r :: rest →
    (.issuedCommand ∈ r.conduct ∨ .otherStream ∈ r.conduct ∨ .assertedReset ∈ r.conduct ∨
      (r.packet.word = 3 ∧ ∃ k : Nat, .changedInput k ∈ r.conduct ∧ r.packet.bundle.OFF.toInt ≤ k ∧
        k < r.packet.bundle.OFF.toInt + r.packet.bundle.LEN.toInt) ∨
      (r.packet.word = 3 ∧ r.packet.bundle.input ≠ none ∧ .inputNotPlain ∈ r.conduct)) →
    ∃ reason, step s = .refused reason

/-- R61: a change of input bytes that the command does not read breaks no duty: the command runs as if nothing had been changed. -/
def Obligations.ChangesElsewhereAllowed : Prop :=
  ∀ (s : State) (p : Packet) (ks : List Nat) (rest : List HostEvent),
    (∀ k ∈ ks, p.word ≠ 3 ∨ (k : Int) < p.bundle.OFF.toInt ∨ p.bundle.OFF.toInt + p.bundle.LEN.toInt ≤ k) →
    s.inbox = .command ⟨p, ks.map .changedInput⟩ :: rest →
    step s = step { s with inbox := HostEvent.plain p :: rest }

/-! ## Internal operations -/

/-- R27: the S-table is a permutation of 0..255, with the check values given there. -/
def Obligations.SboxIsPermutation : Prop :=
  Function.Bijective sbox ∧ sbox 0x00 = 0x29 ∧ sbox 0x01 = 0x2e ∧ sbox 0x10 = 0x62 ∧ sbox 0x80 = 0x45 ∧ sbox 0xff = 0x14 ∧
    sbox 0xdd = 0x00

/-- R152: each new C[i] is the old C[i] XOR S[M[i] XOR l], `l` being the carry at i = 0 and the new C[i-1] after it; L becomes the last
new byte; nothing else changes. -/
def Obligations.ChecksumUpdateRecurrence : Prop :=
  ∀ (M : Block) (c : CoreState),
    (∀ i : Fin 16, (cksUpdate M c).C[i.val] =
      c.C[i.val] ^^^ sbox (M[i.val] ^^^ (if i.val = 0 then c.L else (cksUpdate M c).C[i.val - 1]))) ∧
    (cksUpdate M c).L = (cksUpdate M c).C[15] ∧
    (cksUpdate M c).BUF = c.BUF ∧ (cksUpdate M c).BLEN = c.BLEN ∧ (cksUpdate M c).X = c.X ∧
    (cksUpdate M c).PHASE = c.PHASE

/-- R153: CKS_UPDATE gives the same result when it starts from C[15] instead of L, after any CKS_UPDATE and after CLEAR, the two that
write L. -/
def Obligations.ChecksumFromLastByte : Prop :=
  (∀ (M N : Block) (c : CoreState),
    cksUpdate N (cksUpdate M c) = cksUpdate N { cksUpdate M c with L := (cksUpdate M c).C[15] }) ∧
  (∀ (N : Block) (c : CoreState), cksUpdate N (clear c) = cksUpdate N { clear c with L := (clear c).C[15] })

/-- R155 and R156: COMPRESS loads the block and the XOR of state and block, then makes 18 passes. `W j` is the workspace and the
running byte at the start of pass `j`: `t` is 0 at the start, each new X[k] is the old X[k] XOR S[t], `t` being the pass's
starting byte at k = 0 and the new X[k-1] after it, and the next pass starts from the new X[47] plus `j`. Only X is written. -/
def Obligations.CompressRecurrence : Prop :=
  ∀ (M : Block) (c : CoreState), ∃ W : Nat → Workspace × Byte,
    (∀ i : Fin 16, (W 0).1[i.val] = c.X[i.val] ∧ (W 0).1[16 + i.val] = M[i.val] ∧
      (W 0).1[32 + i.val] = c.X[i.val] ^^^ M[i.val]) ∧
    (W 0).2 = 0 ∧
    (∀ j < 18,
      (∀ k : Fin 48, (W (j + 1)).1[k.val] =
        (W j).1[k.val] ^^^ sbox (if k.val = 0 then (W j).2 else (W (j + 1)).1[k.val - 1])) ∧
      (W (j + 1)).2 = (W (j + 1)).1[47] + BitVec.ofNat 8 j) ∧
    compress M c = { c with X := (W 18).1 }

/-- R157: X[16..47] affect nothing: COMPRESS from two cores with the same X0 leaves the same workspace, and the digest extracted from
two such cores is the same, byte i of it being X[i]. -/
def Obligations.CompressIgnoresOldThirds : Prop :=
  ∀ (M : Block) (c d : CoreState), (∀ i : Fin 16, c.X[i.val] = d.X[i.val]) →
    (compress M c).X = (compress M d).X ∧ extract c = extract d ∧ ∀ i : Fin 16, (extract c)[i] = c.X[i.val]

/-- R132: PROCESS_BLOCK writes C, L and X only, and the order of its two halves cannot be observed. -/
def Obligations.ProcessBlockOrder : Prop :=
  ∀ (M : Block) (c : CoreState),
    processBlock M c = compress M (cksUpdate M c) ∧ processBlock M c = cksUpdate M (compress M c) ∧
    (processBlock M c).BUF = c.BUF ∧ (processBlock M c).BLEN = c.BLEN ∧ (processBlock M c).PHASE = c.PHASE

/-- R158: CKS_UPDATE makes 16 lookups and COMPRESS 864, whatever the data. The listed indices are those looked up by twins of the core's
loops, which take every byte of S through the operation that lists its index (the model's form, log entry 17), and which compute what
the core's own loops do. -/
def Obligations.LookupCounts : Prop :=
  (∀ (M C : Block) (l : Byte), (cksLookups M C l).1.length = 16 ∧ (cksLookups M C l).2 = cksLoop M C l) ∧
  (∀ X : Workspace, (compressLookups X).1.length = 864 ∧ (compressLookups X).2.1 = passesFrom X)

/-- R181: PAD writes P = 16 - BLEN, which is 1 to 16, at BUF[BLEN..15] and nothing else. -/
def Obligations.PadFillsBuffer : Prop :=
  ∀ c : CoreState,
    (∀ i : Fin 16, i.val < c.BLEN.val → (pad c).BUF[i] = c.BUF[i]) ∧
    (∀ i : Fin 16, c.BLEN.val ≤ i.val → (pad c).BUF[i].toNat = 16 - c.BLEN.val) ∧
    1 ≤ 16 - c.BLEN.val ∧ 16 - c.BLEN.val ≤ 16 ∧
    pad c = { c with BUF := (pad c).BUF }

/-! ## Messages and digests -/

/-- R134: after the bytes `m` are appended to a cleared core, PROCESS_BLOCK has run on the ⌊N/16⌋ full blocks in order, BLEN = N mod 16,
and BUF[0..BLEN-1] holds the last BLEN bytes. -/
def Obligations.BlocksOfMessage : Prop :=
  ∀ (m : List Byte) (c : CoreState), c.IsReset →
    ((appendAll m c).BLEN : Nat) = m.length % 16 ∧
    (∀ i : Fin 16, i < (appendAll m c).BLEN → m[m.length - (appendAll m c).BLEN.val + i.val]? = some (appendAll m c).BUF[i]) ∧
    (appendAll m c).C = (processBlocks m (m.length / 16) c).C ∧
    (appendAll m c).L = (processBlocks m (m.length / 16) c).L ∧
    (appendAll m c).X = (processBlocks m (m.length / 16) c).X ∧
    (appendAll m c).PHASE = .accumulating

/-- R104: chunking does not matter. Two scripts of updates, identity commands and rejected commands that feed the same bytes both
complete and reach the same core; in particular a script and one UPDATE_BULK of all its bytes. -/
def Obligations.IncrementalEquivalence : Prop :=
  ∀ (s : State) (es fs : List HostEvent),
    (∀ e ∈ es, e.continuesMessage = true) → (∀ e ∈ fs, e.continuesMessage = true) →
    es.flatMap HostEvent.fedBytes = fs.flatMap HostEvent.fedBytes →
    ∃ t u, Sys2Proof.core.run es.length { s with inbox := es } = .next t ∧
      Sys2Proof.core.run fs.length { s with inbox := fs } = .next u ∧ t.core = u.core ∧
      exec (.updateBulk (some (es.flatMap HostEvent.fedBytes)) 0 (es.flatMap HostEvent.fedBytes).length) s =
        .next ⟨t.core, s.inbox, s.outbox ++ [⟨.ok, .empty⟩]⟩

/-- R184: from a cleared core, whatever its stale BUF, after any script of updates, identity commands and rejected commands, DIGEST
answers the digest of the bytes fed and leaves the core cleared. -/
def Obligations.DigestOfBytesFed : Prop :=
  ∀ (s : State) (es : List HostEvent), s.core.IsReset → (∀ e ∈ es, e.continuesMessage = true) →
    ∃ t, Sys2Proof.core.run (es.length + 1) { s with inbox := es ++ [HostEvent.plain (encode .digest)] } = .next t ∧
      t.outbox.getLast? = some ⟨.ok, .digest (digestOf (es.flatMap HostEvent.fedBytes))⟩ ∧
      t.core.IsReset

/-- R105: a DIGEST right after a DIGEST answers the digest of the empty message. -/
def Obligations.RepeatedDigestIsEmptyMessage : Prop :=
  ∀ s t : State, exec .digest s = .next t →
    ∃ u, exec .digest t = .next u ∧ u.outbox = t.outbox ++ [⟨.ok, .digest (digestOf [])⟩]

/-- R105's corner case: the digest of the empty message is 8350e5a3e24c153df2275c9f80692773 (written as R12 says). -/
def Obligations.EmptyMessageDigest : Prop :=
  digestOf [] = blockOfHex 0x8350e5a3e24c153df2275c9f80692773

/-- R136 and R36: BUF[BLEN..15] is never observable. From two states that agree but for those bytes, a step ends alike. -/
def Obligations.StaleBytesUnobservable : Prop :=
  ∀ s t : State, s.SameForHost t → OutcomeSameForHost (step s) (step t)

/-- R233: after any DIGEST, for every script of the host, every run goes as from power-on: the host can tell no difference. -/
def Obligations.AfterDigestAsPowerOn : Prop :=
  ∀ (s t : State) (es : List HostEvent) (n : Nat), exec .digest s = .next t →
    OutcomeSameForHost (Sys2Proof.core.run n { t with inbox := es })
      (Sys2Proof.core.run n { t with core := State.reset.core, inbox := es })

/-! ## The state between commands -/

/-- R26, R31: at power-on PHASE = Accumulating and L = C[15]. -/
def Obligations.PowerOnBetweenCommands : Prop :=
  State.reset.core.BetweenCommands

/-- R26, R31: from every state between commands, a step ends between commands: PHASE = Accumulating and L = C[15]. -/
def Obligations.StepKeepsBetweenCommands : Prop :=
  ∀ s t : State, s.core.BetweenCommands → step s = .next t → t.core.BetweenCommands

/-! ## Systems -/

/-- R63 and R215: a step of one instance is that core's own step and changes no other instance; at power-on every instance is in
the reset state. -/
def Obligations.InstancesIndependent : Prop :=
  (∀ (k : Fin Config.numInstances) (y z : System), y.stepAt k = .next z →
    step y.instances[k] = .next z.instances[k] ∧
    ∀ j : Fin Config.numInstances, j ≠ k → z.instances[j] = y.instances[j]) ∧
  (∀ k : Fin Config.numInstances, System.reset.instances[k] = State.reset) ∧ 1 ≤ Config.numInstances

/-! ## The assembler -/

/-- R79: the assembler takes a byte of 0..255 and rejects any other, and takes offsets and lengths of -2^31 .. 2^31-1 and rejects any
other; it does not reject values the core's bounds check would reject. -/
def Obligations.AssemblerRanges : Prop :=
  (∀ (env : HostNames) (v : Int),
    (0 ≤ v → v ≤ 255 → assembleLine env (.updateByte v) = .ok [encode (.updateByte (BitVec.ofInt 8 v))]) ∧
    (v < 0 ∨ 255 < v → assembleLine env (.updateByte v) = .error .byteRange)) ∧
  (∀ (env : HostNames) (name : String) (m : List Byte) (o n : Int), env.lookup name = some m →
    (-2 ^ 31 ≤ o ∧ o ≤ 2 ^ 31 - 1 ∧ -2 ^ 31 ≤ n ∧ n ≤ 2 ^ 31 - 1 →
      assembleLine env (.updateBulk (some name) o n) = .ok [encode (.updateBulk (some m) o n)]) ∧
    (o < -2 ^ 31 ∨ 2 ^ 31 - 1 < o ∨ n < -2 ^ 31 ∨ 2 ^ 31 - 1 < n →
      assembleLine env (.updateBulk (some name) o n) = .error .int32Range))

/-- R80: the HASH pseudo-command, from any state of the core, answers OK twice and then the digest of the named sequence. -/
def Obligations.HashPseudoCommand : Prop :=
  ∀ (env : HostNames) (name : String) (m : List Byte) (s : State), env.lookup name = some m → m.length < 2 ^ 31 →
    ∃ ps t, assembleLine env (.hash name) = .ok ps ∧
      Sys2Proof.core.run ps.length { s with inbox := script ps } = .next t ∧
      t.outbox = s.outbox ++ [⟨.ok, .empty⟩, ⟨.ok, .empty⟩, ⟨.ok, .digest (digestOf m)⟩]

/-- R80: UPDATE_STR of a string and UPDATE_ALL of the same bytes leave the same core. -/
def Obligations.UpdateStrIsUpdateAll : Prop :=
  ∀ (env : HostNames) (name : String) (chars : List Char) (s : State),
    chars.all isAscii = true → env.lookup name = some (chars.map charByte) → chars.length < 2 ^ 31 →
    ∃ ps qs t u, assembleLine env (.updateStr chars) = .ok ps ∧ assembleLine env (.updateAll name) = .ok qs ∧
      Sys2Proof.core.run ps.length { s with inbox := script ps } = .next t ∧
      Sys2Proof.core.run qs.length { s with inbox := script qs } = .next u ∧ t.core = u.core
end

