-- ==== Sys2Proof/Laws/State.lean ====
section
/-! SUPPORT. One lemma per field and update, so that no proof unfolds a record update: the internal operations on CoreState, and the
responses and the script of State. -/

namespace Sys2Proof.Machine

/-! ## CLEAR -/
@[simp] theorem clear_BUF (c : CoreState) : (clear c).BUF = c.BUF := rfl
@[simp] theorem clear_BLEN (c : CoreState) : (clear c).BLEN = 0 := rfl
@[simp] theorem clear_C (c : CoreState) : (clear c).C = Vector.replicate 16 0 := rfl
@[simp] theorem clear_L (c : CoreState) : (clear c).L = 0 := rfl
@[simp] theorem clear_X (c : CoreState) : (clear c).X = Vector.replicate 48 0 := rfl
@[simp] theorem clear_PHASE (c : CoreState) : (clear c).PHASE = .accumulating := rfl

/-! ## storeByte -/
@[simp] theorem storeByte_BUF (b : Byte) (c : CoreState) : (storeByte b c).BUF = c.BUF.set c.BLEN b := rfl
@[simp] theorem storeByte_BLEN (b : Byte) (c : CoreState) : (storeByte b c).BLEN = c.BLEN := rfl
@[simp] theorem storeByte_C (b : Byte) (c : CoreState) : (storeByte b c).C = c.C := rfl
@[simp] theorem storeByte_L (b : Byte) (c : CoreState) : (storeByte b c).L = c.L := rfl
@[simp] theorem storeByte_X (b : Byte) (c : CoreState) : (storeByte b c).X = c.X := rfl
@[simp] theorem storeByte_PHASE (b : Byte) (c : CoreState) : (storeByte b c).PHASE = c.PHASE := rfl

/-! ## CKS_UPDATE -/
@[simp] theorem cksUpdate_BUF (M : Block) (c : CoreState) : (cksUpdate M c).BUF = c.BUF := rfl
@[simp] theorem cksUpdate_BLEN (M : Block) (c : CoreState) : (cksUpdate M c).BLEN = c.BLEN := rfl
@[simp] theorem cksUpdate_C (M : Block) (c : CoreState) : (cksUpdate M c).C = (cksLoop M c.C c.L).1 := rfl
@[simp] theorem cksUpdate_L (M : Block) (c : CoreState) : (cksUpdate M c).L = (cksLoop M c.C c.L).2 := rfl
@[simp] theorem cksUpdate_X (M : Block) (c : CoreState) : (cksUpdate M c).X = c.X := rfl
@[simp] theorem cksUpdate_PHASE (M : Block) (c : CoreState) : (cksUpdate M c).PHASE = c.PHASE := rfl

/-! ## COMPRESS -/
@[simp] theorem compress_BUF (M : Block) (c : CoreState) : (compress M c).BUF = c.BUF := rfl
@[simp] theorem compress_BLEN (M : Block) (c : CoreState) : (compress M c).BLEN = c.BLEN := rfl
@[simp] theorem compress_C (M : Block) (c : CoreState) : (compress M c).C = c.C := rfl
@[simp] theorem compress_L (M : Block) (c : CoreState) : (compress M c).L = c.L := rfl
@[simp] theorem compress_X (M : Block) (c : CoreState) : (compress M c).X = passesFrom (loadWorkspace M c.X) := rfl
@[simp] theorem compress_PHASE (M : Block) (c : CoreState) : (compress M c).PHASE = c.PHASE := rfl

/-! ## PROCESS_BLOCK -/
@[simp] theorem processBlock_BUF (M : Block) (c : CoreState) : (processBlock M c).BUF = c.BUF := rfl
@[simp] theorem processBlock_BLEN (M : Block) (c : CoreState) : (processBlock M c).BLEN = c.BLEN := rfl
@[simp] theorem processBlock_C (M : Block) (c : CoreState) : (processBlock M c).C = (cksLoop M c.C c.L).1 := rfl
@[simp] theorem processBlock_L (M : Block) (c : CoreState) : (processBlock M c).L = (cksLoop M c.C c.L).2 := rfl
@[simp] theorem processBlock_X (M : Block) (c : CoreState) : (processBlock M c).X = passesFrom (loadWorkspace M c.X) := rfl
@[simp] theorem processBlock_PHASE (M : Block) (c : CoreState) : (processBlock M c).PHASE = c.PHASE := rfl

/-! ## PAD -/
@[simp] theorem pad_BUF (c : CoreState) : (pad c).BUF = padBlock c.BUF c.BLEN := rfl
@[simp] theorem pad_BLEN (c : CoreState) : (pad c).BLEN = c.BLEN := rfl
@[simp] theorem pad_C (c : CoreState) : (pad c).C = c.C := rfl
@[simp] theorem pad_L (c : CoreState) : (pad c).L = c.L := rfl
@[simp] theorem pad_X (c : CoreState) : (pad c).X = c.X := rfl
@[simp] theorem pad_PHASE (c : CoreState) : (pad c).PHASE = c.PHASE := rfl

/-! ## Responses and the host's script -/
@[simp] theorem respond_core (s : State) (r : Response) : (s.respond r).core = s.core := rfl
@[simp] theorem respond_inbox (s : State) (r : Response) : (s.respond r).inbox = s.inbox := rfl
@[simp] theorem respond_outbox (s : State) (r : Response) : (s.respond r).outbox = s.outbox ++ [r] := rfl
@[simp] theorem withFetchWord_core (s : State) (nbits w : Nat) : (s.withFetchWord nbits w).core = s.core := rfl
@[simp] theorem withFetchWord_outbox (s : State) (nbits w : Nat) : (s.withFetchWord nbits w).outbox = s.outbox := rfl

end Sys2Proof.Machine
end

