-- ==== Sys2Proof/Laws/Ops.lean ====
section
/-! SUPPORT. One lemma per shared operation that says once what it does: how a command ends, the two cases of APPEND, the loop
recurrences of the checksum and of a pass, the operand check of UPDATE_BULK, and the cases of a step. -/

namespace Sys2Proof.Machine

/-! ## How a command ends -/

theorem complete_eq (s : State) (c : CoreState) (p : Payload) :
    s.complete c p = .next ⟨c, s.inbox, s.outbox ++ [⟨.ok, p⟩]⟩ := rfl

theorem reject_eq (s : State) (st : Status) :
    s.reject st = .next ⟨s.core, s.inbox, s.outbox ++ [⟨st, .empty⟩]⟩ := rfl

/-! ## APPEND (R131) -/

/-- APPEND on a buffer with room changes only BUF[BLEN] and BLEN. -/
theorem append_room (b : Byte) (c : CoreState) (h : c.BLEN ≠ 15) :
    append b c = { c with BUF := c.BUF.set c.BLEN b, BLEN := c.BLEN + 1 } := by
  simp [append, h, storeByte]

/-- APPEND of the byte that fills the buffer processes the block and leaves BLEN = 0. -/
theorem append_full (b : Byte) (c : CoreState) (h : c.BLEN = 15) :
    append b c = { processBlock (storeByte b c).BUF (storeByte b c) with BLEN := 0 } := by
  simp [append, h]

@[simp] theorem append_PHASE (b : Byte) (c : CoreState) : (append b c).PHASE = c.PHASE := by
  by_cases h : c.BLEN = 15
  · rw [append_full b c h]; rfl
  · rw [append_room b c h]

@[simp] theorem appendAll_nil (c : CoreState) : appendAll [] c = c := rfl

@[simp] theorem appendAll_cons (b : Byte) (bs : List Byte) (c : CoreState) :
    appendAll (b :: bs) c = appendAll bs (append b c) := rfl

theorem appendAll_append (bs cs : List Byte) (c : CoreState) :
    appendAll (bs ++ cs) c = appendAll cs (appendAll bs c) := by
  simp [appendAll, List.foldl_append]

@[simp] theorem appendAll_PHASE (bs : List Byte) (c : CoreState) : (appendAll bs c).PHASE = c.PHASE := by
  induction bs generalizing c with
  | nil => rfl
  | cons b bs ih => rw [appendAll_cons, ih, append_PHASE]

/-! ## A loop that writes position after position

CKS_UPDATE and a pass have one shape: at each position, in order, a new byte is computed from the old byte there and the running
byte; it is written there and carried on. -/

/-- The loop over the positions of `ks`, in order. -/
@[irreducible] def sweep {n : Nat} (f : Fin n → Byte → Byte → Byte) (ks : List (Fin n)) (p : Vector Byte n × Byte) : Vector Byte n × Byte :=
  ks.foldl (fun (p : Vector Byte n × Byte) (k : Fin n) => (p.1.set k.val (f k p.1[k.val] p.2), f k p.1[k.val] p.2)) p

theorem cksLoop_eq_sweep (M C : Block) (l : Byte) :
    cksLoop M C l = sweep (fun i old l => old ^^^ sbox (M[i] ^^^ l)) (List.finRange 16) (C, l) := by
  have h : cksStep M = fun p i => (p.1.set i.val (p.1[i.val] ^^^ sbox (M[i] ^^^ p.2)), p.1[i.val] ^^^ sbox (M[i] ^^^ p.2)) := by
    funext p i; rw [cksStep]; rfl
  rw [cksLoop, sweep, h]

theorem passFold_eq_sweep (p : Workspace × Byte) :
    (List.finRange 48).foldl passStep p = sweep (fun _ old t => old ^^^ sbox t) (List.finRange 48) p := by
  have h : passStep = fun p k => (p.1.set k.val (p.1[k.val] ^^^ sbox p.2), p.1[k.val] ^^^ sbox p.2) := by
    funext p k; rw [passStep]; rfl
  rw [sweep, h]

theorem sweep_nil {n : Nat} (f : Fin n → Byte → Byte → Byte) (p : Vector Byte n × Byte) : sweep f [] p = p := by
  rw [sweep, List.foldl_nil]

theorem sweep_cons {n : Nat} (f : Fin n → Byte → Byte → Byte) (k : Fin n) (ks : List (Fin n)) (p : Vector Byte n × Byte) :
    sweep f (k :: ks) p = sweep f ks (p.1.set k.val (f k p.1[k.val] p.2), f k p.1[k.val] p.2) := by
  simp only [sweep, List.foldl_cons]

/-- Positions the sweep does not visit keep their bytes. -/
theorem sweep_get_of_not_mem {n : Nat} (f : Fin n → Byte → Byte → Byte) (ks : List (Fin n)) (p : Vector Byte n × Byte)
    (i : Fin n) (h : i ∉ ks) : (sweep f ks p).1[i.val] = p.1[i.val] := by
  induction ks generalizing p with
  | nil => rw [sweep_nil]
  | cons k ks ih =>
    have hk : k.val ≠ i.val := fun e => h (Fin.ext e ▸ List.mem_cons_self)
    rw [sweep_cons, ih _ (fun m => h (List.mem_cons_of_mem k m)), Vector.getElem_set_ne _ _ hk]

theorem sweep_append {n : Nat} (f : Fin n → Byte → Byte → Byte) (as bs : List (Fin n)) (p : Vector Byte n × Byte) :
    sweep f (as ++ bs) p = sweep f bs (sweep f as p) := by
  simp only [sweep, List.foldl_append]

/-- A position visited once gets its new byte from its old byte and the byte the earlier positions leave. -/
theorem sweep_get {n : Nat} (f : Fin n → Byte → Byte → Byte) (as bs : List (Fin n)) (k : Fin n) (p : Vector Byte n × Byte)
    (ha : k ∉ as) (hb : k ∉ bs) : (sweep f (as ++ k :: bs) p).1[k.val] = f k p.1[k.val] (sweep f as p).2 := by
  rw [sweep_append, sweep_cons, sweep_get_of_not_mem f bs _ k hb, Vector.getElem_set_self, sweep_get_of_not_mem f as p k ha]

/-- The byte carried on from a position is the byte written there. -/
theorem sweep_carry {n : Nat} (f : Fin n → Byte → Byte → Byte) (as bs : List (Fin n)) (k : Fin n) (p : Vector Byte n × Byte)
    (hb : k ∉ bs) : (sweep f (as ++ [k]) p).2 = (sweep f (as ++ k :: bs) p).1[k.val] := by
  rw [sweep_append, sweep_append, sweep_cons f k bs, sweep_get_of_not_mem f bs _ k hb, sweep_cons, sweep_nil,
    Vector.getElem_set_self]

/-- The positions in order, cut at one of them. -/
theorem finRange_cut {n : Nat} (k : Fin n) :
    List.finRange n = (List.finRange n).take k.val ++ k :: (List.finRange n).drop (k.val + 1) := by
  conv_lhs => rw [← List.take_append_drop k.val (List.finRange n)]
  congr 1
  rw [List.drop_eq_getElem_cons (by simp)]
  simp

/-- No position comes twice. -/
theorem finRange_cut_not_mem {n : Nat} (k : Fin n) :
    k ∉ (List.finRange n).take k.val ∧ k ∉ (List.finRange n).drop (k.val + 1) := by
  have nd := List.nodup_finRange n
  rw [finRange_cut k, List.nodup_append] at nd
  exact ⟨fun h => nd.2.2 k h k List.mem_cons_self rfl, (List.nodup_cons.1 nd.2.1).1⟩

/-- After a sweep over all positions, each byte comes from the old byte there and the new byte just before it, or, at position 0, the
byte the sweep started from. -/
theorem sweep_all {n : Nat} (f : Fin n → Byte → Byte → Byte) (p : Vector Byte n × Byte) (k : Fin n) :
    (sweep f (List.finRange n) p).1[k.val] =
      f k p.1[k.val] (if k.val = 0 then p.2 else (sweep f (List.finRange n) p).1[k.val - 1]) := by
  conv_lhs => rw [finRange_cut k]
  rw [sweep_get f _ _ k p (finRange_cut_not_mem k).1 (finRange_cut_not_mem k).2]
  by_cases h : k.val = 0
  · simp [h, sweep_nil]
  · have hk : k.val - 1 < n := by omega
    have cut := finRange_cut (⟨k.val - 1, hk⟩ : Fin n)
    have carry := sweep_carry f ((List.finRange n).take (k.val - 1)) _ _ p (finRange_cut_not_mem (⟨k.val - 1, hk⟩ : Fin n)).2
    rw [← cut] at carry
    have take : (List.finRange n).take k.val = (List.finRange n).take (k.val - 1) ++ [⟨k.val - 1, hk⟩] := by
      conv_lhs => rw [show k.val = k.val - 1 + 1 by omega]
      rw [List.take_succ_eq_append_getElem (by simp; omega)]
      simp
    rw [take, if_neg h]
    exact congrArg _ carry

/-- The byte a sweep over all positions ends with is the last byte it wrote. -/
theorem sweep_all_carry {n : Nat} (f : Fin n → Byte → Byte → Byte) (p : Vector Byte n × Byte) (h : 0 < n) :
    (sweep f (List.finRange n) p).2 = (sweep f (List.finRange n) p).1[n - 1] := by
  have hk : n - 1 < n := by omega
  have cut := finRange_cut (⟨n - 1, hk⟩ : Fin n)
  have carry := sweep_carry f ((List.finRange n).take (n - 1)) _ _ p (finRange_cut_not_mem (⟨n - 1, hk⟩ : Fin n)).2
  rw [← cut] at carry
  have last : (List.finRange n).take (n - 1) ++ [⟨n - 1, hk⟩] = List.finRange n := by
    conv_rhs => rw [cut]
    rw [List.drop_eq_nil_of_le (by simp; omega)]
  rw [last] at carry
  exact carry

/-! ## The twins that list their lookups (Safety.lean) do what the core's steps do -/

theorem cksStepNoted_eq (M : Block) (q : List Byte × Block × Byte) (i : Fin 16) :
    cksStepNoted M q i = (q.1 ++ [M[i] ^^^ q.2.2], cksStep M q.2 i) := by
  rw [cksStep]; rfl

theorem passStepNoted_eq (q : List Byte × Workspace × Byte) (k : Fin 48) :
    passStepNoted q k = (q.1 ++ [q.2.2], passStep q.2 k) := by
  rw [passStep]; rfl

/-! ## COMPRESS_LOAD (R155) and PAD (R181), byte by byte -/

theorem loadWorkspace_X0 (M : Block) (X : Workspace) (i : Nat) (h : i < 16) : (loadWorkspace M X)[i] = X[i] := by
  rw [loadWorkspace, Vector.getElem_ofFn]; simp [h]

theorem loadWorkspace_X1 (M : Block) (X : Workspace) (i : Nat) (h : i < 16) : (loadWorkspace M X)[16 + i] = M[i] := by
  rw [loadWorkspace, Vector.getElem_ofFn]; simp [show 16 + i < 32 by omega]

theorem loadWorkspace_X2 (M : Block) (X : Workspace) (i : Nat) (h : i < 16) : (loadWorkspace M X)[32 + i] = X[i] ^^^ M[i] := by
  rw [loadWorkspace, Vector.getElem_ofFn]; simp [show ¬ 32 + i < 16 by omega]

theorem padBlock_data (buf : Block) (blen : Fin 16) (i : Nat) (h : i < blen.val) :
    (padBlock buf blen)[i] = buf[i] := by
  have h' : (⟨i, by omega⟩ : Fin 16) < blen := h
  rw [padBlock, Vector.getElem_ofFn]; simp [h']

theorem padBlock_padding (buf : Block) (blen : Fin 16) (i : Nat) (hi : i < 16) (h : blen.val ≤ i) :
    (padBlock buf blen)[i] = padByte blen := by
  have h' : ¬ (⟨i, hi⟩ : Fin 16) < blen := fun k => absurd (show i < blen.val from k) (by omega)
  rw [padBlock, Vector.getElem_ofFn]; simp [h']

/-! ## Operands of UPDATE_BULK -/

theorem bulkOperands_none (o n : Int) : bulkOperands none o n = .error .nullInput := rfl

theorem bulkOperands_ok (m : List Byte) (o n : Int) (h : inBounds m o n = true) :
    bulkOperands (some m) o n = .ok (inputSlice m o n) := by
  simp [bulkOperands, h]

theorem bulkOperands_bad (m : List Byte) (o n : Int) (h : inBounds m o n = false) :
    bulkOperands (some m) o n = .error .invalidArgument := by
  simp [bulkOperands, h]

theorem inBounds_iff (m : List Byte) (o n : Int) :
    inBounds m o n = true ↔ 0 ≤ o ∧ 0 ≤ n ∧ o + n ≤ m.length := by
  simp [inBounds, and_assoc]

/-- The slice is what `MemRead` gives at `o + k` for each `k < n` (R52). -/
theorem inputSlice_get (m : List Byte) (o n : Int) (k : Nat) (h : k < n.toNat) :
    (inputSlice m o n)[k]? = memRead m (o.toNat + k) := by
  simp [inputSlice, memRead, h]

theorem inputSlice_length (m : List Byte) (o n : Int) (h : inBounds m o n = true) :
    (inputSlice m o n).length = n.toNat := by
  rw [inBounds_iff] at h
  simp [inputSlice]
  omega

/-- The whole input, from offset 0. -/
theorem inputSlice_all (m : List Byte) : inputSlice m 0 m.length = m := by
  simp [inputSlice]

/-! ## exec and step -/

/-- Every command answers one response and changes nothing but the core: all that exec can do. -/
theorem exec_next (i : Instr) (s : State) :
    ∃ c r, exec i s = .next ⟨c, s.inbox, s.outbox ++ [r]⟩ ∧ (r.status ≠ .ok → c = s.core ∧ r.payload = .empty) := by
  cases i with
  | updateBulk input o n =>
    simp only [exec, execUpdateBulk]
    cases bulkOperands input o n with
    | error st => exact ⟨_, _, reject_eq s st, fun _ => ⟨rfl, rfl⟩⟩
    | ok bs => exact ⟨_, _, complete_eq s _ _, fun h => absurd rfl h⟩
  | reset => exact ⟨_, _, complete_eq s _ _, fun h => absurd rfl h⟩
  | updateByte b => exact ⟨_, _, complete_eq s _ _, fun h => absurd rfl h⟩
  | digest => exact ⟨_, _, complete_eq s _ _, fun h => absurd rfl h⟩
  | getName => exact ⟨_, _, complete_eq s _ _, fun h => absurd rfl h⟩
  | getOutlen => exact ⟨_, _, complete_eq s _ _, fun h => absurd rfl h⟩

theorem step_idle (s : State) (h : s.inbox = []) : step s = .next s := by
  simp [step, h]

theorem step_event (s : State) (e : HostEvent) (rest : List HostEvent) (h : s.inbox = e :: rest) :
    step s = runEvent e { s with inbox := rest } := by
  simp [step, h]

/-- All that a step can do when it answers a next state: idle, a reset input, an illegal word, or a decoded command. -/
theorem step_next_cases (s t : State) (h : step s = .next t) :
    (s.inbox = [] ∧ t = s) ∨
    (∃ rest, s.inbox = .resetInput :: rest ∧ t = ⟨clear s.core, rest, s.outbox⟩) ∨
    (∃ r rest, s.inbox = .command r :: rest ∧ r.breach = none ∧ (∃ e, decode r.packet.word r.packet.bundle = .error e) ∧
      t = ⟨s.core, rest, s.outbox ++ [⟨.illegalCommand, .empty⟩]⟩) ∨
    (∃ r rest i, s.inbox = .command r :: rest ∧ r.breach = none ∧ decode r.packet.word r.packet.bundle = .ok i ∧
      exec i ⟨s.core, rest, s.outbox⟩ = .next t) := by
  cases hs : s.inbox with
  | nil =>
    rw [step_idle s hs] at h
    exact .inl ⟨rfl, (Host.Outcome.next.inj h).symm⟩
  | cons e rest =>
    rw [step_event s e rest hs] at h
    cases e with
    | resetInput => exact .inr (.inl ⟨rest, rfl, (Host.Outcome.next.inj h).symm⟩)
    | command r =>
      simp only [runEvent, runRequest] at h
      cases hb : r.breach with
      | some reason => rw [hb] at h; cases h
      | none =>
        rw [hb] at h
        simp only [runPacket] at h
        cases hd : decode r.packet.word r.packet.bundle with
        | error e =>
          rw [hd] at h
          exact .inr (.inr (.inl ⟨r, rest, rfl, hb, ⟨e, hd⟩, (Host.Outcome.next.inj h).symm⟩))
        | ok i =>
          rw [hd] at h
          exact .inr (.inr (.inr ⟨r, rest, i, rfl, hb, hd, h⟩))

end Sys2Proof.Machine
end

