-- ==== Sys2Proof/Laws/PerInstr.lean ====
section
/-! SUPPORT. Facts about every command as syntax, one lemma per constructor. -/

/-- The encoded word of a command is matched by the row of R71's table that bears the command's mnemonic, and by no other. -/
def Sys2Proof.Laws.EncodesInOwnRow.Statement (i : Sys2Proof.Instr) : Prop :=
  ∀ r ∈ Sys2Proof.opcodeRows, r.matchesWord (Sys2Proof.encode i).word = true ↔ r.mnemonic = i.mnemonic

namespace Sys2Proof.Laws.EncodesInOwnRow

theorem reset : Statement .reset := by unfold Statement; decide

theorem updateByte (b : Byte) : Statement (.updateByte b) := by
  unfold Statement
  revert b
  decide +kernel

theorem updateBulk (input : Option (List Byte)) (o n : Int) : Statement (.updateBulk input o n) := by
  simp only [Statement, encode, Instr.mnemonic]
  decide

theorem digest : Statement .digest := by unfold Statement; decide

theorem getName : Statement .getName := by unfold Statement; decide

theorem getOutlen : Statement .getOutlen := by unfold Statement; decide

end Sys2Proof.Laws.EncodesInOwnRow
end

