-- ==== Sys2Proof/Tests/Slice0.lean ====
section
/-! SUPPORT. Small tests. Expected values are those of spec/95_test_vectors.md (its section is named) or are counted by hand from a rule.
The theorems named witness_* show concrete states and operands that meet the hypotheses of a statement. -/

namespace Sys2Proof.Tests

open Sys2Proof Sys2Proof.Machine

/-- The state a next outcome holds. -/
def nextOf : Host.Outcome State Fault Refusal → Option State
  | .next s => some s
  | .fault _ => none
  | .refused _ => none

/-- The refusal of an outcome. -/
def refusalOf : Host.Outcome State Fault Refusal → Option Refusal
  | .next _ => none
  | .fault _ => none
  | .refused r => some r

/-- The last response and the buffer count after an outcome. -/
def answerOf (o : Host.Outcome State Fault Refusal) : Option (Option Response × Fin 16) :=
  (nextOf o).map fun s => (s.outbox.getLast?, s.core.BLEN)

/-- Sixteen equal bytes. -/
def sixteen (b : Byte) : Block := Vector.replicate 16 b

/-- A core with a partial block "abc" and marked C, L and X; L = C[15]. -/
def busyCore : CoreState where
  BUF := #v[0x61, 0x62, 0x63, 0, 0, 0, 0, 0, 0, 0, 0, 0, 0, 0, 0xee, 0xff]
  BLEN := 3
  C := sixteen 0x11
  L := 0x11
  X := Vector.replicate 48 0x22
  PHASE := .accumulating

/-- A state around a core, with a script. -/
def stateOf (c : CoreState) (es : List HostEvent) : State := ⟨c, es, []⟩

/-- The host's next event is this word with this bundle. -/
def issue (w : CmdWord) (b : Bundle) : HostEvent := HostEvent.plain ⟨w, b⟩

/-- A bundle. -/
def abc (o n : Int) : Bundle := ⟨some [0x61, 0x62, 0x63], BitVec.ofInt 32 o, BitVec.ofInt 32 n⟩

/-! ## Well-formedness: each check refuses an ill-formed term -/

theorem test_wf_rejects_offset_below : (Instr.updateBulk (some []) (-2147483649) 0).wellFormed = false := by decide
theorem test_wf_rejects_offset_above : (Instr.updateBulk (some []) 2147483648 0).wellFormed = false := by decide
theorem test_wf_rejects_length_below : (Instr.updateBulk none 0 (-2147483649)).wellFormed = false := by decide
theorem test_wf_rejects_length_above : (Instr.updateBulk none 0 2147483648).wellFormed = false := by decide
theorem test_wf_accepts_extremes : (Instr.updateBulk none (-2147483648) 2147483647).wellFormed = true := by decide

/-! ## Decoding: words written out bit by bit from R71's patterns (95, section 2.1) -/

theorem test_decode_reset : decode 0b00000000000000000000000000000001 Bundle.nothing = .ok .reset := by decide
theorem test_decode_update_byte :
    decode 0b00000000000000000110000100000010 Bundle.nothing = .ok (.updateByte 0x61) := by decide
theorem test_decode_update_byte_zero :
    decode 0b00000000000000000000000000000010 Bundle.nothing = .ok (.updateByte 0) := by decide
theorem test_decode_update_bulk :
    decode 0b00000000000000000000000000000011 (abc (-1) 2) = .ok (.updateBulk (some [0x61, 0x62, 0x63]) (-1) 2) := by decide
theorem test_decode_digest : decode 0b00000000000000000000000000000100 Bundle.nothing = .ok .digest := by decide
theorem test_decode_get_name : decode 0b00000000000000000000000000000101 Bundle.nothing = .ok .getName := by decide
theorem test_decode_get_outlen : decode 0b00000000000000000000000000000110 Bundle.nothing = .ok .getOutlen := by decide
theorem test_decode_illegal_opcodes :
    [0x00000000, 0x00000007, 0x0000000F].map (fun w => decode w Bundle.nothing) =
      [.error .reservedOpcode, .error .reservedOpcode, .error .reservedOpcode] := by decide
theorem test_decode_illegal_data :
    [0x00000101, 0x00000104].map (fun w => decode w Bundle.nothing) = [.error .dataNotZero, .error .dataNotZero] := by decide
theorem test_decode_illegal_reserved :
    [0x00000012, 0x00010002, 0x80000004].map (fun w => decode w Bundle.nothing) =
      [.error .reservedBits, .error .reservedBits, .error .reservedBits] := by decide
theorem test_encode_update_byte : (encode (.updateByte 0x61)).word = 0x00006102 := by decide
theorem test_encode_bulk_negative :
    (encode (.updateBulk none (-1) (-1))).bundle = ⟨none, 0xFFFFFFFF, 0xFFFFFFFF⟩ := by decide
theorem test_table_words :
    [1, 2, 3, 4, 5, 6].map (decodeTableWord 32) =
      [some .reset, some (.updateByte 0), some (.updateBulk (some []) 0 0), some .digest, some .getName, some .getOutlen] := by
  decide
theorem test_table_word_illegal : decodeTableWord 32 0 = none := by decide

/-! ## S-box, checksum, compression, padding -/

/-- The check values of 10_state.md R27. -/
theorem test_sbox_check_values :
    [0x00, 0x01, 0x10, 0x80, 0xff, 0xdd].map sbox = [0x29, 0x2e, 0x62, 0x45, 0x14, 0x00] := by decide +kernel

/-- 95, section 2.2, "abc" padded. -/
theorem test_checksum_abc :
    cksLoop #v[0x61, 0x62, 0x63, 0xd, 0xd, 0xd, 0xd, 0xd, 0xd, 0xd, 0xd, 0xd, 0xd, 0xd, 0xd, 0xd] (sixteen 0) 0 =
      (blockOfHex 0x19e29d1b7304368e595a276f302f57cc, 0xcc) := by decide +kernel

/-- 95, section 2.2, the carry into a second block. -/
theorem test_checksum_carry :
    cksLoop (blockOfHex 0x101112131415161718191a1b1c1d1e1f) (blockOfHex 0x2967a5afce08062ee07774f111bc0d43) 0x43 =
      (blockOfHex 0xb3c44d3844771f134142413d8a4a57d7, 0xd7) := by decide +kernel

/-- 95, section 2.3: pass 0 of the zero block ends with t = 0x80. -/
theorem test_pass_zero_running_byte : (onePass (Vector.replicate 48 0, 0) 0).2 = 0x80 := by decide +kernel

/-- 95, section 2.3: `t = f5`, `j = 17` gives 06. -/
theorem test_pass_increment_wraps : (0xf5 : Byte) + BitVec.ofNat 8 17 = 0x06 := by decide

/-- R155: the thirds after COMPRESS_LOAD, at their first and last bytes. -/
theorem test_load_thirds :
    [0, 15, 16, 31, 32, 47].map (fun k => (loadWorkspace (sixteen 0x0f) (Vector.replicate 48 0x22)).toList[k]?) =
      [some 0x22, some 0x22, some 0x0f, some 0x0f, some 0x2d, some 0x2d] := by decide +kernel

/-- 95, section 2.3: X0 after PROCESS_BLOCK of the zero block from the reset state. -/
theorem test_compress_zero_block :
    extract (compress (sixteen 0) CoreState.reset) = blockOfHex 0x31817b3bc77d835797313d526e88b863 := by decide +kernel

/-- 95, section 2.4, BLEN = 3. -/
theorem test_pad_abc : (pad busyCore).BUF = blockOfHex 0x6162630d0d0d0d0d0d0d0d0d0d0d0d0d := by decide +kernel

/-- 95, section 2.4, BLEN = 0 and BLEN = 15. -/
theorem test_pad_edges :
    padBlock (sixteen 0x61) 0 = sixteen 0x10 ∧ padBlock (sixteen 0x61) 15 = blockOfHex 0x61616161616161616161616161616101 := by
  decide +kernel

/-! ## Commands -/

/-- 40_commands.md R100's example. -/
theorem test_reset_clears :
    (nextOf (exec .reset (stateOf busyCore []))).map (fun s => (s.core.BLEN, s.core.C, s.core.L, s.core.BUF)) =
      some (0, sixteen 0, 0, busyCore.BUF) := by decide +kernel

/-- 40_commands.md R102's example: from reset, byte 61 goes to BUF[0]. -/
theorem test_update_byte :
    (nextOf (exec (.updateByte 0x61) State.reset)).map (fun s => (s.core.BUF[0], s.core.BLEN, s.core.C)) =
      some (0x61, 1, sixteen 0) := by decide +kernel

/-- 95, section 2.7: the sixteenth byte drains the buffer; here C after the block 00 01 .. 0f. -/
theorem test_update_byte_fills :
    (nextOf (exec (.updateByte 0x0f)
      (stateOf { CoreState.reset with BUF := blockOfHex 0x000102030405060708090a0b0c0d0e00, BLEN := 15 } []))).map
        (fun s => (s.core.BLEN, s.core.C, s.core.L)) =
      some (0, blockOfHex 0x2967a5afce08062ee07774f111bc0d43, 0x43) := by decide +kernel

/-- 40_commands.md R103's example: UPDATE_BULK IN, 0, 3. -/
theorem test_update_bulk :
    (nextOf (step (stateOf CoreState.reset [issue 3 (abc 0 3)]))).map (fun s => (s.core.BUF, s.core.BLEN, s.outbox)) =
      some (blockOfHex 0x61626300000000000000000000000000, 3, [⟨.ok, .empty⟩]) := by decide +kernel

/-- 95, section 2.8: the rows with IN = "abc", the last two being the ones where a 32-bit sum would wrap. -/
theorem test_bulk_statuses :
    [(0, 0), (3, 0), (4, 0), (2, 2), (-1, 1), (0, -1), (0x7FFFFFFF, 1), (1, 0x7FFFFFFF)].map
        (fun p => answerOf (step (stateOf CoreState.reset [issue 3 (abc p.1 p.2)]))) =
      [some (some ⟨.ok, .empty⟩, 0), some (some ⟨.ok, .empty⟩, 0), some (some ⟨.invalidArgument, .empty⟩, 0),
        some (some ⟨.invalidArgument, .empty⟩, 0), some (some ⟨.invalidArgument, .empty⟩, 0),
        some (some ⟨.invalidArgument, .empty⟩, 0), some (some ⟨.invalidArgument, .empty⟩, 0),
        some (some ⟨.invalidArgument, .empty⟩, 0)] := by decide +kernel

/-- 95, section 2.8: NULL with OFF = LEN = -1 is NullInput (priority). -/
theorem test_bulk_null :
    answerOf (step (stateOf busyCore [issue 3 ⟨none, 0xFFFFFFFF, 0xFFFFFFFF⟩])) = some (some ⟨.nullInput, .empty⟩, 3) := by
  decide +kernel

/-- 95, program P1's DIGEST: "abc". -/
theorem test_digest_abc :
    (nextOf (exec .digest (stateOf { busyCore with C := sixteen 0, L := 0, X := Vector.replicate 48 0 } []))).map
        (fun s => (s.core.BLEN, s.outbox)) =
      some (0, [⟨.ok, .digest (blockOfHex 0xda853b0d3f88d99b30283a69e6ded6bb)⟩]) := by decide +kernel

/-- R106: the payload is ALG_NAME, whatever it is. -/
theorem test_get_name : exec .getName State.reset = .next ⟨CoreState.reset, [], [⟨.ok, .name Config.algName⟩]⟩ := rfl

/-- 40_commands.md R107's example, with BLEN = 3. -/
theorem test_get_outlen : answerOf (exec .getOutlen (stateOf busyCore [])) = some (some ⟨.ok, .outLen 16⟩, 3) := by decide +kernel

/-- 95, section 2.9: the all-zero word. -/
theorem test_illegal_word :
    (nextOf (step (stateOf busyCore [issue 0 Bundle.nothing]))).map (fun s => (s.core, s.outbox)) =
      some (busyCore, [⟨.illegalCommand, .empty⟩]) := by decide +kernel

/-- R200's codes. -/
theorem test_status_codes : [Status.ok, .invalidArgument, .nullInput, .illegalCommand].map Status.code = [0, 1, 2, 3] := by decide

/-- R231: the reset input. -/
theorem test_reset_input :
    (nextOf (step (stateOf busyCore [.resetInput]))).map (fun s => (s.core.BLEN, s.core.L, s.outbox)) = some (0, 0, []) := by
  decide +kernel

/-- A table word placed after reset is the next to run: here UPDATE_BYTE 61. -/
theorem test_fetch_word : answerOf (step (State.reset.withFetchWord 32 0x6102)) = some (some ⟨.ok, .empty⟩, 1) := by decide +kernel

/-! ## The host's duties -/

theorem test_overlap_refused :
    refusalOf (step (stateOf busyCore [.command ⟨⟨1, Bundle.nothing⟩, [.issuedCommand]⟩])) = some .overlappingCommand := by decide
theorem test_changed_input_refused :
    refusalOf (step (stateOf busyCore [.command ⟨⟨3, abc 1 2⟩, [.changedInput 2]⟩])) = some .inputChanged := by decide
theorem test_changed_input_elsewhere_runs :
    answerOf (step (stateOf busyCore [.command ⟨⟨3, abc 1 1⟩, [.changedInput 2, .changedInput 0]⟩])) =
      some (some ⟨.ok, .empty⟩, 4) := by decide +kernel

/-! ## The assembler (R79, R80; programs P1 and P2 of 95) -/

theorem test_asm_program :
    assembleText [("IN", [0x61, 0x62, 0x63])]
        "RESET ; start\nUPDATE_BYTE 'a'\nupdate 0x62\n\nUpdate_Bulk IN, 2, 5\n.word 0x00000101\nNOP\nDIGEST" =
      .ok [encode .reset, encode (.updateByte 0x61), encode (.updateByte 0x62),
        encode (.updateBulk (some [0x61, 0x62, 0x63]) 2 5), ⟨0x00000101, Bundle.nothing⟩, encode .getOutlen, encode .digest] := by
  decide +kernel
theorem test_asm_null_and_pseudo :
    assembleText [("m", [7, 8])] "UPDATE_BULK NULL, -1, 0\nUPDATE_ALL m\nUPDATE_STR \"a;b\" ; c\nHASH m" =
      .ok [encode (.updateBulk none (-1) 0), encode (.updateBulk (some [7, 8]) 0 2), encode (.updateByte 0x61),
        encode (.updateByte 0x3b), encode (.updateByte 0x62), encode .reset, encode (.updateBulk (some [7, 8]) 0 2),
        encode .digest] := by decide +kernel
theorem test_asm_rejects_byte : assembleText [] "UPDATE_BYTE 256" = .error .byteRange := by decide +kernel
theorem test_asm_rejects_offset : assembleText [("m", [])] "UPDATE_BULK m, 2147483648, 0" = .error .int32Range := by decide +kernel
theorem test_asm_semicolon_byte : assembleText [] "UPDATE_BYTE ';' ; x" = .ok [encode (.updateByte 0x3b)] := by decide +kernel

/-- R79: a semicolon right after a closing quote starts a comment, at the end of the line and before it. -/
theorem test_asm_comment_after_quote :
    assembleText [] "UPDATE_STR \"a\";\nUPDATE_STR \"b\";x" = .ok [encode (.updateByte 0x61), encode (.updateByte 0x62)] := by
  decide +kernel

/-! ## Witnesses: states and operands that meet each statement's hypotheses -/

/-- IdleKeepsState, DutifulRunsComplete, StepKeepsBetweenCommands, DigestOfBytesFed, BlocksOfMessage. -/
theorem witness_reset_state :
    State.reset.inbox = [] ∧ (∀ e ∈ State.reset.inbox, e.keepsDuties = true) ∧ State.reset.core.BetweenCommands ∧
      State.reset.core.IsReset ∧ ∃ t, step State.reset = .next t :=
  ⟨rfl, by decide, ⟨rfl, rfl⟩, ⟨rfl, rfl, rfl, rfl, rfl⟩, _, rfl⟩

/-- BlocksOfMessage and DigestOfBytesFed, with stale bytes in BUF; StepKeepsBetweenCommands in the middle
of a message, with a step that goes on. -/
theorem witness_cleared_and_busy_core :
    (clear busyCore).IsReset ∧ busyCore.BetweenCommands ∧ ∃ t, step (stateOf busyCore [issue 0x6102 Bundle.nothing]) = .next t :=
  ⟨⟨rfl, rfl, rfl, rfl, rfl⟩, ⟨rfl, rfl⟩, _, rfl⟩

/-- DecodeOfEncode and EncodeOfDecode, with the operands at the ends of their range. -/
theorem witness_round_trip :
    (Instr.updateBulk (some [1]) (-2147483648) 2147483647).wellFormed = true ∧
      decode 3 ⟨some [1], 0x80000000, 0x7FFFFFFF⟩ = .ok (.updateBulk (some [1]) (-2147483648) 2147483647) := by decide

/-- BundleReadOnlyByBulk: a word on each side. -/
theorem witness_bundle_words : (4 : CmdWord) ≠ 3 ∧ (3 : CmdWord) = 3 := by decide

/-- StepRunsDecodedCommand, StatusPriority and ResponseOfEveryCommand. -/
theorem witness_dutiful_command :
    let r : Request := ⟨⟨0x6102, Bundle.nothing⟩, []⟩
    (stateOf busyCore [.command r]).inbox = .command r :: [] ∧ r.breach = none ∧
      decode r.packet.word r.packet.bundle = .ok (.updateByte 0x61) := by decide

/-- IllegalWordAnswered and RejectionLeavesCore. -/
theorem witness_illegal_command :
    let r : Request := ⟨⟨0x101, Bundle.nothing⟩, []⟩
    let s := stateOf busyCore [.command r]
    s.inbox = .command r :: [] ∧ r.breach = none ∧ decode r.packet.word r.packet.bundle = .error .dataNotZero ∧
      ∃ t resp, step s = .next t ∧ t.outbox = s.outbox ++ [resp] ∧ resp.status ≠ .ok :=
  ⟨rfl, rfl, rfl, _, ⟨.illegalCommand, .empty⟩, rfl, rfl, by decide⟩

/-- FetchWordRunsNext. -/
theorem witness_table_word : decodeTableWord 32 4 = some .digest := by decide

/-- ResetInputClears. -/
theorem witness_reset_input : (stateOf busyCore [.resetInput]).inbox = .resetInput :: [] := rfl

/-- UpdateByteAppends: both clauses, at 14 and 15. -/
theorem witness_buffer_counts :
    (stateOf { busyCore with BLEN := 14 } []).core.BLEN ≠ 15 ∧ (stateOf { busyCore with BLEN := 15 } []).core.BLEN = 15 := by decide

/-- UpdateBulkAppends and UpdateBulkIsByteUpdates: the sum at the input's length, and n = 0 at its end. -/
theorem witness_bulk_bounds :
    ((0 : Int) ≤ 1 ∧ (0 : Int) ≤ 2 ∧ (1 : Int) + 2 ≤ ([0x61, 0x62, 0x63] : List Byte).length) ∧
      ((0 : Int) ≤ 3 ∧ (0 : Int) ≤ 0 ∧ (3 : Int) + 0 ≤ ([0x61, 0x62, 0x63] : List Byte).length) := by decide

/-- InvalidArgumentExactly: each reason at its boundary, and the case beside them that has none. -/
theorem witness_bulk_out_of_bounds :
    inBounds [0x61, 0x62, 0x63] (-1) 1 = false ∧ inBounds [0x61, 0x62, 0x63] 0 (-1) = false ∧
      inBounds [0x61, 0x62, 0x63] 4 0 = false ∧ inBounds [0x61, 0x62, 0x63] 3 0 = true := by decide

/-- UpdateFrame: its four forms each end in a next state. -/
theorem witness_update_forms :
    (∃ t, exec (.updateByte 7) (stateOf busyCore []) = .next t) ∧
      (inBounds [7] 0 1 = true ∧ ∃ t, exec (.updateBulk (some [7]) 0 1) (stateOf busyCore []) = .next t) ∧
      (inBounds [7] 0 2 = false ∧ ∃ t, exec (.updateBulk (some [7]) 0 2) (stateOf busyCore []) = .next t) ∧
      ∃ t, exec (.updateBulk none 0 1) (stateOf busyCore []) = .next t :=
  ⟨⟨_, rfl⟩, ⟨by decide, _, rfl⟩, ⟨by decide, _, rfl⟩, _, rfl⟩

/-- OnlyDigestShowsState. -/
theorem witness_not_digest : Instr.getOutlen ≠ .digest := by decide

/-- DutifulRunsComplete, with a script. -/
theorem witness_dutiful_script :
    ∀ e ∈ (stateOf busyCore [issue 4 Bundle.nothing, .resetInput]).inbox, e.keepsDuties = true := by decide

/-- BrokenDutyRefused: one request per duty, duty 2 at the first and the last byte of the range. -/
theorem witness_broken_duties :
    HostAct.issuedCommand ∈ (⟨⟨1, abc 0 3⟩, [.issuedCommand]⟩ : Request).conduct ∧
      HostAct.otherStream ∈ (⟨⟨1, abc 0 3⟩, [.otherStream]⟩ : Request).conduct ∧
      HostAct.assertedReset ∈ (⟨⟨1, abc 0 3⟩, [.assertedReset]⟩ : Request).conduct ∧
      ((abc 1 2).OFF.toInt ≤ (1 : Nat) ∧ ((1 : Nat) : Int) < (abc 1 2).OFF.toInt + (abc 1 2).LEN.toInt) ∧
      ((abc 1 2).OFF.toInt ≤ (2 : Nat) ∧ ((2 : Nat) : Int) < (abc 1 2).OFF.toInt + (abc 1 2).LEN.toInt) ∧
      ((abc 1 2).input ≠ none ∧ HostAct.inputNotPlain ∈ (⟨⟨3, abc 1 2⟩, [.inputNotPlain]⟩ : Request).conduct) := by decide

/-- ChangesElsewhereAllowed: another word, the byte just below the range and the byte just above it. -/
theorem witness_changes_elsewhere :
    (1 : CmdWord) ≠ 3 ∧ ((0 : Nat) : Int) < (abc 1 1).OFF.toInt ∧ (abc 1 1).OFF.toInt + (abc 1 1).LEN.toInt ≤ (2 : Nat) := by decide

/-- CompressIgnoresOldThirds: two cores that agree on X0 and differ elsewhere. -/
theorem witness_same_first_third :
    ∀ i : Fin 16, (compressLoad (sixteen 1) busyCore).X[i.val] = busyCore.X[i.val] := by decide +kernel

/-- PadFillsBuffer: a data byte and a padding byte, on the two sides of BLEN = 3. -/
theorem witness_pad_sides : (2 : Fin 16).val < busyCore.BLEN.val ∧ busyCore.BLEN.val ≤ (3 : Fin 16).val := by decide

/-- IncrementalEquivalence and DigestOfBytesFed: two scripts of continuing events, one with a rejected and an identity command,
that feed the same bytes. -/
theorem witness_equal_scripts :
    let es := [issue 3 (abc 0 1), issue 3 (abc 2 5), issue 0x101 Bundle.nothing, issue 6 Bundle.nothing, issue 3 (abc 1 2)]
    let fs := [issue 0x6102 Bundle.nothing, issue 0x6202 Bundle.nothing, issue 0x6302 Bundle.nothing]
    (∀ e ∈ es, e.continuesMessage = true) ∧ (∀ e ∈ fs, e.continuesMessage = true) ∧
      es.flatMap HostEvent.fedBytes = fs.flatMap HostEvent.fedBytes := by decide +kernel

/-- RepeatedDigestIsEmptyMessage and AfterDigestAsPowerOn: a DIGEST in the middle of a message goes on. -/
theorem witness_digest : ∃ t, exec .digest (stateOf busyCore []) = .next t := ⟨_, rfl⟩

/-- StaleBytesUnobservable: two states that differ in a stale byte. -/
theorem witness_stale :
    (stateOf busyCore []).SameForHost (stateOf { busyCore with BUF := busyCore.BUF.set 3 0x99 } []) :=
  ⟨⟨rfl, rfl, rfl, rfl, rfl, by decide +kernel⟩, rfl, rfl⟩

/-- InstancesIndependent: in a system with an idle instance, its step goes on. -/
theorem witness_system (k : Fin Config.numInstances) : ∃ z, System.reset.stepAt k = .next z := by
  have h : step System.reset.instances[k] = .next State.reset := by
    simp [System.reset, step, State.reset]
  exact ⟨_, by simp only [System.stepAt, h]; rfl⟩

/-- AssemblerRanges, HashPseudoCommand and UpdateStrIsUpdateAll: a name that is there, and operands on both sides of each range. -/
theorem witness_assembler :
    List.lookup "m" [("m", [(0x61 : Byte)])] = some (['a'].map charByte) ∧ ['a'].all isAscii = true ∧
      ((0 : Int) ≤ 255 ∧ (255 : Int) ≤ 255) ∧ ((255 : Int) < 256) ∧ ((-1 : Int) < 0) ∧ ((2147483648 : Int) > 2 ^ 31 - 1) ∧
      ((-2147483649 : Int) < -2 ^ 31) := by decide +kernel

end Sys2Proof.Tests
end

section
/-! PROOFS. The state's family (spec/10_state.md): the state between commands is kept, only DIGEST shows the core's state, the S-table
is a permutation. -/

namespace Sys2Proof.Machine

/-! ## The state between commands (R26, R31) -/

/-- CKS_UPDATE's loop leaves as carry the byte it wrote last (R152), which is why L = C[15] between commands (R31). -/
theorem cksLoop_carry_eq_last (M C : Block) (l : Byte) : (cksLoop M C l).2 = (cksLoop M C l).1[15] := by
  rw [cksLoop_eq_sweep]
  exact sweep_all_carry _ _ (by decide)

theorem betweenCommands_clear (c : CoreState) : (clear c).BetweenCommands :=
  ⟨clear_PHASE c, by simp⟩

theorem betweenCommands_append {c : CoreState} (h : c.BetweenCommands) (b : Byte) : (append b c).BetweenCommands := by
  obtain ⟨hphase, hcarry⟩ := h
  refine ⟨by rw [append_PHASE, hphase], ?_⟩
  by_cases hfull : c.BLEN = 15
  · rw [append_full b c hfull]
    exact cksLoop_carry_eq_last _ _ _
  · rw [append_room b c hfull]
    exact hcarry

theorem betweenCommands_appendAll {c : CoreState} (h : c.BetweenCommands) (bs : List Byte) :
    (appendAll bs c).BetweenCommands := by
  induction bs generalizing c with
  | nil => exact h
  | cons b bs ih => exact ih (betweenCommands_append h b)

/-- All that a command can do to the core: CLEAR it, after whatever went before, or append bytes to the message, none of them for
a rejected or an identity command. -/
theorem exec_core_cases {i : Instr} {s t : State} (h : exec i s = .next t) :
    (∃ c, t.core = clear c) ∨ ∃ bs, t.core = appendAll bs s.core := by
  cases i with
  | reset => cases h; exact .inl ⟨s.core, rfl⟩
  | updateByte b => cases h; exact .inr ⟨[b], rfl⟩
  | updateBulk input o n =>
    simp only [exec, execUpdateBulk] at h
    cases hops : bulkOperands input o n with
    | error st => rw [hops] at h; cases h; exact .inr ⟨[], rfl⟩
    | ok bs => rw [hops] at h; cases h; exact .inr ⟨bs, rfl⟩
  | digest => cases h; exact .inl ⟨finalizeBlocks s.core, rfl⟩
  | getName => cases h; exact .inr ⟨[], rfl⟩
  | getOutlen => cases h; exact .inr ⟨[], rfl⟩

/-- All that a step can do to the core is what a command can. -/
theorem step_core_cases {s t : State} (h : step s = .next t) :
    (∃ c, t.core = clear c) ∨ ∃ bs, t.core = appendAll bs s.core := by
  obtain ⟨-, rfl⟩ | ⟨rest, -, rfl⟩ | ⟨r, rest, -, -, -, rfl⟩ | ⟨r, rest, i, -, -, -, hexec⟩ := step_next_cases s t h
  · exact .inr ⟨[], rfl⟩
  · exact .inl ⟨s.core, rfl⟩
  · exact .inr ⟨[], rfl⟩
  · exact exec_core_cases (s := ⟨s.core, rest, s.outbox⟩) hexec

/-- Settles O47: a step clears the core or appends bytes to it, and both keep the state between commands. -/
theorem stepKeepsBetweenCommands : Obligations.StepKeepsBetweenCommands := by
  intro s t hs hstep
  obtain ⟨c, hc⟩ | ⟨bs, hbs⟩ := step_core_cases hstep
  · rw [hc]; exact betweenCommands_clear c
  · rw [hbs]; exact betweenCommands_appendAll hs bs

/-- Settles O46: the core at power-on is a cleared core. -/
theorem powerOnBetweenCommands : Obligations.PowerOnBetweenCommands :=
  betweenCommands_clear CoreState.reset

/-! ## Only DIGEST shows the state (R24, R36) -/

/-- The response of a command other than DIGEST is fixed before the state is: by the command, or, for UPDATE_BULK, by its operand
check. -/
theorem exec_response_fixed {i : Instr} (h : i ≠ .digest) :
    ∃ resp, ∀ s, ∃ s', exec i s = .next s' ∧ s'.outbox = s.outbox ++ [resp] := by
  cases i with
  | digest => exact absurd rfl h
  | updateBulk input o n =>
    simp only [exec, execUpdateBulk]
    cases bulkOperands input o n with
    | error st => exact ⟨_, fun s => ⟨_, reject_eq s st, rfl⟩⟩
    | ok bs => exact ⟨_, fun s => ⟨_, complete_eq s _ _, rfl⟩⟩
  | reset => exact ⟨_, fun s => ⟨_, complete_eq s _ _, rfl⟩⟩
  | updateByte b => exact ⟨_, fun s => ⟨_, complete_eq s _ _, rfl⟩⟩
  | getName => exact ⟨_, fun s => ⟨_, complete_eq s _ _, rfl⟩⟩
  | getOutlen => exact ⟨_, fun s => ⟨_, complete_eq s _ _, rfl⟩⟩

/-- Settles O27: the one response that is fixed before the state is the response from both states. -/
theorem onlyDigestShowsState : Obligations.OnlyDigestShowsState := by
  intro i s t hi
  obtain ⟨resp, hresp⟩ := exec_response_fixed hi
  obtain ⟨s', hs, hsout⟩ := hresp s
  obtain ⟨t', ht, htout⟩ := hresp t
  exact ⟨s', t', resp, hs, ht, hsout, htout⟩

/-! ## The S-table (R27) -/

/-- Where a byte first stands in the S-table, read row by row. -/
def sboxIndexOf (y : Byte) : Byte := BitVec.ofNat 8 ((sTable.toList.flatMap Vector.toList).idxOf y)

/-- Every byte stands in the S-table. -/
theorem sbox_sboxIndexOf (y : Byte) : sbox (sboxIndexOf y) = y := by
  revert y
  decide +kernel

/-- SBOX is onto, so on the finite type of bytes it is a bijection. -/
theorem sbox_bijective : Function.Bijective sbox :=
  (Function.RightInverse.surjective sbox_sboxIndexOf).bijective_of_finite

/-- Settles O31: the permutation from an inverse table, the check values by reading the table. -/
theorem sboxIsPermutation : Obligations.SboxIsPermutation :=
  ⟨sbox_bijective, by decide +kernel⟩

end Sys2Proof.Machine
end

section
/-! PROOFS. The memory's family (spec/20_memory.md): a change of input bytes that the command does not read makes no difference (R61),
and the instances of a system do not share state (R63). -/

namespace Sys2Proof.Machine

/-! ## UPDATE_BULK's word (R70, R71) -/

/-- A word with clear reserved and data fields is its opcode (R70). -/
theorem toNat_eq_opField {w : CmdWord} (hB : rsvbField w = 0) (hdata : dataField w = 0) (hA : rsvaField w = 0) :
    w.toNat = (opField w).toNat := by
  have hB' : (rsvbField w).toNat = 0 := congrArg BitVec.toNat hB
  have hdata' : (dataField w).toNat = 0 := congrArg BitVec.toNat hdata
  have hA' : (rsvaField w).toNat = 0 := congrArg BitVec.toNat hA
  simp only [rsvbField, dataField, rsvaField, opField, BitVec.extractLsb'_toNat, Nat.shiftRight_eq_div_pow] at hB' hdata' hA' ⊢
  omega

/-- Only the word 3 decodes to an UPDATE_BULK. -/
theorem word_of_decode_updateBulk {w : CmdWord} {b : Bundle} {input : Option (List Byte)} {o n : Int}
    (h : decode w b = .ok (.updateBulk input o n)) : w = 3 := by
  simp only [decode, noData] at h
  split_ifs at h <;> cases h
  next hrsv _ _ hop hdata =>
    obtain ⟨hB, hA⟩ := not_or.1 hrsv
    apply BitVec.eq_of_toNat_eq
    rw [toNat_eq_opField (not_not.1 hB) hdata (not_not.1 hA), hop]
    rfl

theorem isBulkWord_iff (w : CmdWord) : isBulkWord w = true ↔ w = 3 := by
  constructor
  · intro h
    unfold isBulkWord at h
    split at h
    · exact word_of_decode_updateBulk ‹_›
    · cases h
  · rintro rfl
    decide

/-! ## Changes the command does not read (R61, R236) -/

theorem inWindow_iff (b : Bundle) (k : Nat) :
    inWindow b k = true ↔ b.OFF.toInt ≤ k ∧ (k : Int) < b.OFF.toInt + b.LEN.toInt := by
  simp [inWindow]

/-- A change of the byte IN[k] breaks no duty exactly when the command does not read IN[k]. -/
theorem changedInput_breach_none_iff (p : Packet) (k : Nat) :
    HostAct.breach p (.changedInput k) = none ↔
      p.word ≠ 3 ∨ (k : Int) < p.bundle.OFF.toInt ∨ p.bundle.OFF.toInt + p.bundle.LEN.toInt ≤ k := by
  simp only [HostAct.breach, ite_eq_right_iff, reduceCtorEq, imp_false, Bool.and_eq_true, isBulkWord_iff, inWindow_iff,
    not_and_or, not_le, not_lt]

/-- The host keeps its duties in a command exactly when none of its acts breaks one. -/
theorem request_breach_none_iff (r : Request) :
    r.breach = none ↔ ∀ a ∈ r.conduct, HostAct.breach r.packet a = none :=
  List.findSome?_eq_none_iff

/-- A command during which the host keeps its duties runs as its packet alone says. -/
theorem runRequest_of_breach_none {r : Request} (h : r.breach = none) (s : State) :
    runRequest r s = runPacket r.packet s := by
  rw [runRequest, h]

/-- A step whose next event is a command during which the host keeps its duties runs that command's packet. -/
theorem step_command {s : State} {r : Request} {rest : List HostEvent} (hin : s.inbox = .command r :: rest)
    (h : r.breach = none) : step s = runPacket r.packet { s with inbox := rest } := by
  rw [step_event s _ rest hin]
  exact runRequest_of_breach_none h _

/-- Settles O30: no such change breaks a duty, so both steps run the same packet. -/
theorem changesElsewhereAllowed : Obligations.ChangesElsewhereAllowed := by
  intro s p ks rest hks hin
  have hkept : Request.breach ⟨p, ks.map .changedInput⟩ = none := by
    rw [request_breach_none_iff]
    intro a ha
    obtain ⟨k, hk, rfl⟩ := List.mem_map.1 ha
    exact (changedInput_breach_none_iff p k).2 (hks k hk)
  have hplain : Request.breach ⟨p, []⟩ = none := rfl
  rw [step_command hin hkept, step_command (r := ⟨p, []⟩) rfl hplain]

/-! ## Instances of a system (R63, R215) -/

/-- A step of the instance at `k` goes on exactly when that core's own step does, and puts the core's next state at `k`. -/
theorem stepAt_next_iff (k : Fin Config.numInstances) (y z : System) :
    y.stepAt k = .next z ↔ ∃ s, step y.instances[k] = .next s ∧ z = ⟨y.instances.set k s⟩ := by
  rw [System.stepAt]
  cases step y.instances[k] with
  | next s => simp [eq_comm]
  | fault r => simp
  | refused r => simp

theorem system_reset_get (k : Fin Config.numInstances) : System.reset.instances[k] = State.reset :=
  Vector.getElem_replicate k.isLt

/-- Settles O48: a step writes the position `k` alone, and power-on fills every position with the reset state. -/
theorem instancesIndependent : Obligations.InstancesIndependent := by
  refine ⟨fun k y z h => ?_, system_reset_get, Nat.le_add_left 1 Config.extraInstances⟩
  obtain ⟨s, hstep, rfl⟩ := (stepAt_next_iff k y z).1 h
  refine ⟨?_, fun j hj => ?_⟩
  · rw [hstep]
    exact congrArg _ (Vector.getElem_set_self k.isLt).symm
  · exact Vector.getElem_set_ne k.isLt j.isLt fun e => hj (Fin.ext e.symm)

end Sys2Proof.Machine
end

section
/-! PROOFS. The encoding's family (spec/30_encoding.md), the decoder and the encoder: a word decodes to a command exactly when it is
that command's encoded word. Both round trips, the table rows and the illegal words follow (R70 to R75). -/

namespace Sys2Proof

/-! ## The fields of a word, in arithmetic (R70) -/

theorem opField_toNat (w : CmdWord) : (opField w).toNat = w.toNat % 2 ^ 4 := by
  simp [opField]

theorem rsvaField_toNat (w : CmdWord) : (rsvaField w).toNat = w.toNat / 2 ^ 4 % 2 ^ 4 := by
  simp [rsvaField, Nat.shiftRight_eq_div_pow]

theorem dataField_toNat (w : CmdWord) : (dataField w).toNat = w.toNat / 2 ^ 8 % 2 ^ 8 := by
  simp [dataField, Nat.shiftRight_eq_div_pow]

theorem rsvbField_toNat (w : CmdWord) : (rsvbField w).toNat = w.toNat / 2 ^ 16 := by
  have hw := w.isLt
  simp only [rsvbField, BitVec.extractLsb'_toNat, Nat.shiftRight_eq_div_pow]
  omega

/-- Concatenation puts the left part's number above the right part's. -/
theorem toNat_append_eq_add {n m : Nat} (x : BitVec n) (y : BitVec m) : (x ++ y).toNat = 2 ^ m * x.toNat + y.toNat := by
  rw [BitVec.toNat_append, ← Nat.shiftLeft_add_eq_or_of_lt y.isLt, Nat.shiftLeft_eq, Nat.mul_comm]

theorem mkWord_toNat (op : BitVec 4) (d : Byte) : (mkWord op d).toNat = 2 ^ 8 * d.toNat + op.toNat := by
  calc (mkWord op d).toNat
    _ = 2 ^ 4 * (2 ^ 4 * (2 ^ 8 * 0 + d.toNat) + 0) + op.toNat := by
      rw [mkWord]
      exact (toNat_append_eq_add _ op).trans (by rw [toNat_append_eq_add, toNat_append_eq_add]; rfl)
    _ = 2 ^ 8 * d.toNat + op.toNat := by omega

@[simp] theorem opField_mkWord (op : BitVec 4) (d : Byte) : opField (mkWord op d) = op := by
  apply BitVec.eq_of_toNat_eq
  rw [opField_toNat, mkWord_toNat]
  omega

@[simp] theorem rsvaField_mkWord (op : BitVec 4) (d : Byte) : rsvaField (mkWord op d) = 0 := by
  apply BitVec.eq_of_toNat_eq
  rw [rsvaField_toNat, mkWord_toNat, show (0 : BitVec 4).toNat = 0 from rfl]
  omega

@[simp] theorem dataField_mkWord (op : BitVec 4) (d : Byte) : dataField (mkWord op d) = d := by
  apply BitVec.eq_of_toNat_eq
  rw [dataField_toNat, mkWord_toNat]
  omega

@[simp] theorem rsvbField_mkWord (op : BitVec 4) (d : Byte) : rsvbField (mkWord op d) = 0 := by
  apply BitVec.eq_of_toNat_eq
  rw [rsvbField_toNat, mkWord_toNat, show (0 : BitVec 16).toNat = 0 from rfl]
  omega

/-- A word with clear reserved fields is the encoder's word of its opcode and data byte (R70). -/
theorem eq_mkWord_of_fields {w : CmdWord} {op : BitVec 4} {d : Byte} (hrsv : ¬(rsvbField w ≠ 0 ∨ rsvaField w ≠ 0))
    (hop : opField w = op) (hdata : dataField w = d) : w = mkWord op d := by
  obtain ⟨hB, hA⟩ : rsvbField w = 0 ∧ rsvaField w = 0 := by simpa using hrsv
  subst hop hdata
  apply BitVec.eq_of_toNat_eq
  have hB' : w.toNat / 2 ^ 16 = 0 := by rw [← rsvbField_toNat, hB]; rfl
  have hA' : w.toNat / 2 ^ 4 % 2 ^ 4 = 0 := by rw [← rsvaField_toNat, hA]; rfl
  rw [mkWord_toNat, opField_toNat, dataField_toNat]
  omega

/-! ## What the decoder reads (R72, R74, R75) -/

/-- The command as a bundle completes it: UPDATE_BULK takes the bundle's input and its OFF and LEN as signed integers, and no
other command takes anything (R74, R75). -/
def Instr.readBundle (b : Bundle) : Instr → Instr
  | .updateBulk _ _ _ => .updateBulk b.input (sint b.OFF) (sint b.LEN)
  | i => i

@[simp] theorem mnemonic_readBundle (b : Bundle) (i : Instr) : (i.readBundle b).mnemonic = i.mnemonic := by
  cases i <;> rfl

/-- The word alone decides whether it is legal and which command it is; the bundle only fills in UPDATE_BULK. -/
theorem decode_eq_map_readBundle (w : CmdWord) (b b' : Bundle) : decode w b = (decode w b').map (Instr.readBundle b) := by
  simp only [decode, noData]
  split_ifs <;> rfl

/-- The encoded word of a command, with any bundle, decodes to that command completed by that bundle. -/
theorem decode_encode_word (i : Instr) (b : Bundle) : decode (encode i).word b = .ok (i.readBundle b) := by
  cases i <;> simp [encode, plainPacket, decode, noData, Instr.readBundle]

/-- Only the encoded word of a command decodes to it, and only with the operands that the bundle holds. -/
theorem eq_encode_word_of_decode {w : CmdWord} {b : Bundle} {i : Instr} (h : decode w b = .ok i) :
    w = (encode i).word ∧ i.readBundle b = i := by
  simp only [decode, noData] at h
  split_ifs at h <;> cases h
  case _ hrsv hop hdata => exact ⟨eq_mkWord_of_fields hrsv hop hdata, rfl⟩
  case _ hrsv _ hop => exact ⟨eq_mkWord_of_fields hrsv hop rfl, rfl⟩
  all_goals exact ⟨eq_mkWord_of_fields ‹_› ‹opField w = _› ‹dataField w = _›, rfl⟩

/-- A word with a bundle decodes to a command exactly when it is that command's encoded word and the command's operands are the
bundle's. -/
theorem decode_ok_iff {w : CmdWord} {b : Bundle} {i : Instr} :
    decode w b = .ok i ↔ w = (encode i).word ∧ i.readBundle b = i := by
  refine ⟨eq_encode_word_of_decode, ?_⟩
  rintro ⟨rfl, hi⟩
  rw [decode_encode_word, hi]

/-! ## Round trips (R70, R71, R74, R75) -/

theorem fitsInt32_iff (v : Int) : fitsInt32 v = true ↔ -2 ^ 31 ≤ v ∧ v ≤ 2 ^ 31 - 1 := by
  simp [fitsInt32]

/-- Two's complement in 32 bits keeps an integer that fits (R9, R75). -/
theorem sint_ofInt_of_fitsInt32 {v : Int} (h : fitsInt32 v = true) : sint (BitVec.ofInt 32 v) = v := by
  obtain ⟨hlow, hhigh⟩ := (fitsInt32_iff v).1 h
  rw [sint, BitVec.toInt_ofInt, Int.bmod_def]
  omega

theorem fitsInt32_sint (v : BitVec 32) : fitsInt32 (sint v) = true := by
  have hlow := BitVec.le_toInt v
  have hhigh := BitVec.toInt_lt (x := v)
  rw [fitsInt32_iff, sint]
  omega

/-- The encoder's bundle holds the operands of a well-formed command. -/
theorem readBundle_encode_of_wellFormed {i : Instr} (h : i.wellFormed = true) : i.readBundle (encode i).bundle = i := by
  cases i with
  | updateBulk input o n =>
    obtain ⟨ho, hn⟩ := (Bool.and_eq_true _ _).mp h
    simp only [encode, Instr.readBundle, sint_ofInt_of_fitsInt32 ho, sint_ofInt_of_fitsInt32 hn]
  | reset | updateByte b | digest | getName | getOutlen => rfl

/-- A command completed by a bundle is well formed: OFF and LEN are 32-bit fields. -/
theorem wellFormed_readBundle (b : Bundle) (i : Instr) : (i.readBundle b).wellFormed = true := by
  cases i with
  | updateBulk input o n => simp only [Instr.readBundle, Instr.wellFormed, fitsInt32_sint, Bool.and_self]
  | reset | updateByte b | digest | getName | getOutlen => rfl

/-- The encoder writes into UPDATE_BULK's bundle what was read from it. -/
theorem encode_bundle_readBundle {b : Bundle} {i : Instr} (h : i.mnemonic = "UPDATE_BULK") :
    (encode (i.readBundle b)).bundle = b := by
  cases i with
  | updateBulk input o n => simp only [Instr.readBundle, encode, sint, BitVec.ofInt_toInt]
  | reset | updateByte b | digest | getName | getOutlen => simp [Instr.mnemonic] at h

/-- Settles O4: the encoded word decodes to the command completed by the encoded bundle, which is the command itself. -/
theorem decodeOfEncode : Obligations.DecodeOfEncode := fun _ h =>
  decode_ok_iff.2 ⟨rfl, readBundle_encode_of_wellFormed h⟩

/-- Settles O5: only encoded words decode, and the operands decoded are the bundle's. -/
theorem encodeOfDecode : Obligations.EncodeOfDecode := by
  intro w b i h
  obtain ⟨hword, hread⟩ := decode_ok_iff.1 h
  rw [← hread]
  refine ⟨wellFormed_readBundle b i, ?_, fun hbulk => encode_bundle_readBundle ?_⟩
  · rw [hread, hword]
  · rwa [mnemonic_readBundle] at hbulk

/-- Settles O3: only the word 3 decodes to an UPDATE_BULK, and no other command reads the bundle. -/
theorem bundleReadOnlyByBulk : Obligations.BundleReadOnlyByBulk := by
  refine fun w b b' => ⟨fun hw => ?_, fun hw => ?_⟩
  · rw [decode_eq_map_readBundle w b b']
    cases hdec : decode w b' with
    | error e => rfl
    | ok i =>
      cases i with
      | updateBulk input o n => exact absurd (Machine.word_of_decode_updateBulk hdec) hw
      | reset | updateByte d | digest | getName | getOutlen => rfl
  · exact decode_ok_iff.2 ⟨hw, rfl⟩

/-! ## The opcode table (R71) -/

/-- A row that fixes all 32 bits matches its own word only. -/
theorem matchesWord_full_iff (name : String) (m w : CmdWord) :
    (⟨name, m, 0xFFFFFFFF⟩ : OpcodeRow).matchesWord w = true ↔ w = m := by
  rw [OpcodeRow.matchesWord, beq_iff_eq, show (0xFFFFFFFF : CmdWord) = BitVec.allOnes 32 from rfl, BitVec.and_allOnes]

/-- UPDATE_BYTE's row, which leaves DATA free, matches the encoded words of UPDATE_BYTE only. -/
theorem eq_mkWord_of_and_mask {w : CmdWord} (h : w &&& 0xFFFF00FF = 0x00000002) : w = mkWord 2 (dataField w) := by
  have field (start len : Nat) (hmask : BitVec.extractLsb' start len (0xFFFF00FF : CmdWord) = BitVec.allOnes len) :
      w.extractLsb' start len = BitVec.extractLsb' start len (0x00000002 : CmdWord) := by
    rw [← h, BitVec.extractLsb'_and, hmask, BitVec.and_allOnes]
  have hB : rsvbField w = 0 := field 16 16 (by decide)
  have hA : rsvaField w = 0 := field 4 4 (by decide)
  have hop : opField w = 2 := field 0 4 (by decide)
  exact eq_mkWord_of_fields (by simp [hB, hA]) hop rfl

/-- Every word that a row matches is the encoded word of a command with the row's mnemonic. -/
theorem encode_word_of_matchesWord {r : OpcodeRow} (hr : r ∈ opcodeRows) {w : CmdWord} (h : r.matchesWord w = true) :
    ∃ i, w = (encode i).word ∧ i.mnemonic = r.mnemonic := by
  simp only [opcodeRows, List.mem_cons, List.not_mem_nil, or_false] at hr
  obtain rfl | rfl | rfl | rfl | rfl | rfl := hr
  · exact ⟨.reset, (matchesWord_full_iff _ _ w).1 h, rfl⟩
  · exact ⟨.updateByte (dataField w), eq_mkWord_of_and_mask (eq_of_beq h), rfl⟩
  · exact ⟨.updateBulk none 0 0, (matchesWord_full_iff _ _ w).1 h, rfl⟩
  · exact ⟨.digest, (matchesWord_full_iff _ _ w).1 h, rfl⟩
  · exact ⟨.getName, (matchesWord_full_iff _ _ w).1 h, rfl⟩
  · exact ⟨.getOutlen, (matchesWord_full_iff _ _ w).1 h, rfl⟩

/-- The encoded word of a command is matched by the command's own row and no other. -/
theorem encodesInOwnRow (i : Instr) : Laws.EncodesInOwnRow.Statement i := by
  cases i with
  | reset => exact Laws.EncodesInOwnRow.reset
  | updateByte b => exact Laws.EncodesInOwnRow.updateByte b
  | updateBulk input o n => exact Laws.EncodesInOwnRow.updateBulk input o n
  | digest => exact Laws.EncodesInOwnRow.digest
  | getName => exact Laws.EncodesInOwnRow.getName
  | getOutlen => exact Laws.EncodesInOwnRow.getOutlen

/-- Every command has a row. -/
theorem exists_row_of_mnemonic (i : Instr) : ∃ r ∈ opcodeRows, r.mnemonic = i.mnemonic := by
  cases i <;> simp [opcodeRows, Instr.mnemonic]

/-- The mnemonic tells the rows apart. -/
theorem eq_of_mnemonic_eq : ∀ r ∈ opcodeRows, ∀ r' ∈ opcodeRows, r.mnemonic = r'.mnemonic → r = r' := by
  decide

/-- A row matches a word exactly when the word decodes to a command with the row's mnemonic. -/
theorem matchesWord_iff_decode {r : OpcodeRow} (hr : r ∈ opcodeRows) (w : CmdWord) (b : Bundle) :
    r.matchesWord w = true ↔ ∃ i, decode w b = .ok i ∧ i.mnemonic = r.mnemonic := by
  constructor
  · intro h
    obtain ⟨i, rfl, hi⟩ := encode_word_of_matchesWord hr h
    exact ⟨i.readBundle b, decode_encode_word i b, by rw [mnemonic_readBundle, hi]⟩
  · rintro ⟨i, hdec, hi⟩
    obtain ⟨rfl, -⟩ := decode_ok_iff.1 hdec
    exact (encodesInOwnRow i r hr).2 hi.symm

/-- Settles O1: a row matches exactly the words of the command with its mnemonic; every command has a row, and no two rows have one
mnemonic. -/
theorem decodeMatchesOneTableRow : Obligations.DecodeMatchesOneTableRow := by
  refine fun w b => ⟨fun r hr => matchesWord_iff_decode hr w b, ?_, fun r hr r' hr' h h' => ?_⟩
  · constructor
    · rintro ⟨i, hdec⟩
      obtain ⟨r, hr, hi⟩ := exists_row_of_mnemonic i
      exact ⟨r, hr, (matchesWord_iff_decode hr w b).2 ⟨i, hdec, hi.symm⟩⟩
    · rintro ⟨r, hr, h⟩
      obtain ⟨i, hdec, -⟩ := (matchesWord_iff_decode hr w b).1 h
      exact ⟨i, hdec⟩
  · obtain ⟨i, hdec, hi⟩ := (matchesWord_iff_decode hr w b).1 h
    obtain ⟨i', hdec', hi'⟩ := (matchesWord_iff_decode hr' w b).1 h'
    obtain rfl : i = i' := Except.ok.inj (hdec.symm.trans hdec')
    exact eq_of_mnemonic_eq r hr r' hr' (hi.symm.trans hi')

/-! ## Illegal words (R72, R73) -/

@[simp] theorem exists_noData_error_iff (w : CmdWord) (i : Instr) : (∃ e, noData w i = .error e) ↔ dataField w ≠ 0 := by
  by_cases hdata : dataField w = 0
  · rw [noData, if_pos hdata]
    simp [hdata]
  · rw [noData, if_neg hdata]
    exact iff_of_true ⟨_, rfl⟩ hdata

/-- R73's three cases, in the decoder's own fields. -/
theorem exists_decode_error_iff (w : CmdWord) (b : Bundle) :
    (∃ e, decode w b = .error e) ↔
      (rsvbField w ≠ 0 ∨ rsvaField w ≠ 0) ∨ (opField w = 0 ∨ 7 ≤ opField w) ∨ (dataField w ≠ 0 ∧ opField w ≠ 2) := by
  simp only [decode]
  split_ifs with hrsv h1 h2 h3 h4 h5 h6
  case pos => exact iff_of_true ⟨_, rfl⟩ (.inl hrsv)
  case neg =>
    have hop : opField w = 0 ∨ 7 ≤ opField w := by bv_omega
    exact iff_of_true ⟨_, rfl⟩ (.inr (.inl hop))
  all_goals
    rw [or_iff_right hrsv]
    simp [*]

/-- Settles O2: the fields in which the decoder rejects a word, as the arithmetic on its number that they are. -/
theorem illegalWordsExactly : Obligations.IllegalWordsExactly := by
  intro w b
  rw [exists_decode_error_iff]
  simp only [ne_eq, BitVec.toNat_eq, BitVec.le_def, rsvbField_toNat, rsvaField_toNat, dataField_toNat, opField_toNat,
    or_assoc]
  rfl

/-- Settles O6: each word is evaluated; none of them reads the bundle. -/
theorem decodeOfWrittenWords : Obligations.DecodeOfWrittenWords :=
  fun _ => ⟨rfl, rfl, rfl, rfl, rfl, rfl, ⟨_, rfl⟩, ⟨_, rfl⟩, ⟨_, rfl⟩, ⟨_, rfl⟩⟩

end Sys2Proof
end

section
/-! PROOFS. The encoding's family, messages: the core after the bytes of a message, and the digest of it (R134, R184). HASH rests on
these. -/

namespace Sys2Proof.Machine

/-! ## The hash state: C, L and X -/

/-- Two cores agree on C, L and X, which is all that PROCESS_BLOCK and the digest read beside the block (R132). -/
def CoreState.SameHash (c d : CoreState) : Prop := c.C = d.C ∧ c.L = d.L ∧ c.X = d.X

theorem sameHash_processBlock {c d : CoreState} (h : c.SameHash d) (M : Block) :
    (processBlock M c).SameHash (processBlock M d) := by
  obtain ⟨hC, hL, hX⟩ := h
  simp only [CoreState.SameHash, processBlock_C, processBlock_L, processBlock_X, hC, hL, hX, and_self]

/-- Steps F4 and F5 of FINALIZE, COMPRESS on the checksum and EXTRACT, read C and X only (R182). -/
theorem extract_compress_C_of_sameHash {c d : CoreState} (h : c.SameHash d) :
    extract (compress c.C c) = extract (compress d.C d) := by
  obtain ⟨hC, -, hX⟩ := h
  simp only [extract, compress_X, hC, hX]

/-! ## The blocks of a message (R134) -/

theorem messageBlock_get (m : List Byte) (q : Nat) (i : Nat) (hi : i < 16) :
    (messageBlock m q)[i] = m.getD (16 * q + i) 0 := by
  rw [messageBlock, Vector.getElem_ofFn]

/-- Bytes after a full block do not change it. -/
theorem messageBlock_append {m : List Byte} {q : Nat} (h : 16 * (q + 1) ≤ m.length) (l : List Byte) :
    messageBlock (m ++ l) q = messageBlock m q := by
  ext1 i hi
  rw [messageBlock_get, messageBlock_get, List.getD_append _ _ _ _ (by omega)]

@[simp] theorem processBlocks_zero (m : List Byte) (c : CoreState) : processBlocks m 0 c = c := rfl

theorem processBlocks_succ (m : List Byte) (q : Nat) (c : CoreState) :
    processBlocks m (q + 1) c = processBlock (messageBlock m q) (processBlocks m q c) := by
  simp only [processBlocks, List.range_succ, List.foldl_append, List.foldl_cons, List.foldl_nil]

/-- Bytes after the first `q` full blocks do not change what PROCESS_BLOCK makes of those. -/
theorem processBlocks_append {m : List Byte} {q : Nat} (h : 16 * q ≤ m.length) (l : List Byte) (c : CoreState) :
    processBlocks (m ++ l) q c = processBlocks m q c := by
  induction q with
  | zero => rw [processBlocks_zero, processBlocks_zero]
  | succ q ih => rw [processBlocks_succ, processBlocks_succ, messageBlock_append h, ih (by omega)]

/-! ## The core after the bytes of a message (R134) -/

/-- The core has taken in the message `m` since it was cleared: PROCESS_BLOCK has run on the full blocks, from the hash state of
the reset state, and BUF[0..BLEN-1] holds the bytes after them. -/
structure CoreState.HasTaken (c : CoreState) (m : List Byte) : Prop where
  count : c.BLEN.val = m.length % 16
  pending : ∀ i (hi : i < 16), i < c.BLEN.val → c.BUF[i] = m.getD (16 * (m.length / 16) + i) 0
  hash : c.SameHash (processBlocks m (m.length / 16) CoreState.reset)

theorem hasTaken_nil_of_isReset {c : CoreState} (h : c.IsReset) : c.HasTaken [] := by
  obtain ⟨hblen, hC, hL, hX, -⟩ := h
  exact ⟨by rw [hblen]; rfl, fun i _ hlt => by simp [hblen] at hlt, hC, hL, hX⟩

/-- The first step of APPEND puts the new byte behind the pending ones. -/
theorem storeByte_get_of_hasTaken {c : CoreState} {m : List Byte} (h : c.HasTaken m) (b : Byte) {i : Nat} (hi : i < 16)
    (hle : i ≤ c.BLEN.val) : (storeByte b c).BUF[i] = (m ++ [b]).getD (16 * (m.length / 16) + i) 0 := by
  have hcount := h.count
  rw [storeByte_BUF]
  obtain hlt | rfl := Nat.lt_or_eq_of_le hle
  · rw [Vector.getElem_set_ne _ _ (by omega), h.pending i hi hlt, List.getD_append _ _ _ _ (by omega)]
  · rw [Vector.getElem_set_self, hcount, Nat.div_add_mod, List.getD_append_right _ _ _ _ le_rfl, Nat.sub_self,
      List.getD_cons_zero]

/-- A byte that leaves room joins the pending bytes; the full blocks stay as they are. -/
theorem hasTaken_append_of_room {c : CoreState} {m : List Byte} (h : c.HasTaken m) (b : Byte) (hroom : c.BLEN ≠ 15) :
    (append b c).HasTaken (m ++ [b]) := by
  have hcount := h.count
  have hlt : c.BLEN.val < 15 := by omega
  have hblen : (c.BLEN + 1).val = c.BLEN.val + 1 := by omega
  have hlen : (m ++ [b]).length = m.length + 1 := List.length_append
  have hq : (m ++ [b]).length / 16 = m.length / 16 := by omega
  rw [append_room b c hroom]
  refine ⟨?_, fun i hi hpend => ?_, ?_⟩
  · rw [hblen]; omega
  · rw [hblen] at hpend
    rw [hq]
    exact storeByte_get_of_hasTaken h b hi (by omega)
  · rw [hq, processBlocks_append (by omega)]
    exact h.hash

/-- A byte that fills the buffer makes it the message's next full block, which is processed at once. -/
theorem hasTaken_append_of_full {c : CoreState} {m : List Byte} (h : c.HasTaken m) (b : Byte) (hfull : c.BLEN = 15) :
    (append b c).HasTaken (m ++ [b]) := by
  have hcount : m.length % 16 = 15 := by rw [← h.count, hfull]; rfl
  have hlen : (m ++ [b]).length = m.length + 1 := List.length_append
  have hq : (m ++ [b]).length / 16 = m.length / 16 + 1 := by omega
  have hblock : (storeByte b c).BUF = messageBlock (m ++ [b]) (m.length / 16) := by
    ext1 i hi
    rw [messageBlock_get, storeByte_get_of_hasTaken h b hi (by rw [hfull]; exact Nat.le_of_lt_succ hi)]
  rw [append_full b c hfull]
  refine ⟨?_, fun i hi hpend => absurd hpend (Nat.not_lt_zero i), ?_⟩
  · rw [hlen, Nat.add_mod, hcount]; rfl
  · rw [hq, processBlocks_succ, processBlocks_append (by omega), hblock]
    exact sameHash_processBlock h.hash _

theorem hasTaken_append {c : CoreState} {m : List Byte} (h : c.HasTaken m) (b : Byte) :
    (append b c).HasTaken (m ++ [b]) := by
  by_cases hfull : c.BLEN = 15
  · exact hasTaken_append_of_full h b hfull
  · exact hasTaken_append_of_room h b hfull

theorem hasTaken_appendAll {c : CoreState} {m : List Byte} (h : c.HasTaken m) (bs : List Byte) :
    (appendAll bs c).HasTaken (m ++ bs) := by
  induction bs generalizing c m with
  | nil => rwa [List.append_nil]
  | cons b bs ih =>
    rw [appendAll_cons, List.append_cons]
    exact ih (hasTaken_append h b)

/-- After APPEND of every byte of `m` to a cleared core, the core has taken in `m`. -/
theorem hasTaken_appendAll_of_isReset {c : CoreState} (h : c.IsReset) (m : List Byte) : (appendAll m c).HasTaken m :=
  hasTaken_appendAll (hasTaken_nil_of_isReset h) m

theorem isReset_clear (c : CoreState) : (clear c).IsReset :=
  ⟨clear_BLEN c, clear_C c, clear_L c, clear_X c, clear_PHASE c⟩

/-! ## The digest of a message (R181, R182, R184) -/

/-- The pending bytes, padded, are the last block of the padded message (R181). -/
theorem padBlock_of_hasTaken {c : CoreState} {m : List Byte} (h : c.HasTaken m) :
    padBlock c.BUF c.BLEN = messageBlock (paddedMessage m) (m.length / 16) := by
  have hcount := h.count
  ext1 i hi
  rw [messageBlock_get, paddedMessage]
  obtain hlt | hge := Nat.lt_or_ge i c.BLEN.val
  · rw [padBlock_data _ _ _ hlt, h.pending i hi hlt, List.getD_append _ _ _ _ (by omega)]
  · rw [padBlock_padding _ _ _ hi hge, List.getD_append_right _ _ _ _ (by omega), padByte, hcount,
      List.getD_replicate _ (by omega)]

/-- DIGEST of a core that has taken in `m` is the digest of `m`, which R184 gives with no buffer. -/
theorem finalizeDigest_of_hasTaken {c : CoreState} {m : List Byte} (h : c.HasTaken m) :
    finalizeDigest c = digestOf m := by
  apply extract_compress_C_of_sameHash
  rw [processBlocks_succ, paddedMessage, processBlocks_append (by omega), ← paddedMessage, ← padBlock_of_hasTaken h]
  exact sameHash_processBlock (c := pad { c with PHASE := .finalizing }) h.hash _

end Sys2Proof.Machine
end

section
/-! PROOFS. The encoding's family, responses and the assembler: what each command answers (R76), and what the lines of the assembler
stand for and do (R79, R80). -/

namespace Sys2Proof.Machine

/-! ## The response of a command (R76) -/

/-- The payloads with which a command may answer OK: 16 bytes for DIGEST, ALG_NAME for GET_NAME, 16 for GET_OUTLEN, and the empty
payload for the others (R76). -/
def OkPayload : Instr → Payload → Prop
  | .reset, p => p = .empty
  | .updateByte _, p => p = .empty
  | .updateBulk _ _ _, p => p = .empty
  | .digest, p => ∃ D, p = .digest D
  | .getName, p => p = .name Config.algName
  | .getOutlen, p => p = .outLen 16

/-- Every command appends one response: an error with the empty payload, or OK with the payload the command calls for. -/
theorem exec_response (i : Instr) (s : State) :
    ∃ c resp, exec i s = .next ⟨c, s.inbox, s.outbox ++ [resp]⟩ ∧ (resp.status ≠ .ok → resp.payload = .empty) ∧
      (resp.status = .ok → OkPayload i resp.payload) := by
  cases i with
  | updateBulk input o n =>
    simp only [exec, execUpdateBulk]
    cases bulkOperands input o n with
    | error st => exact ⟨_, _, reject_eq s st, fun _ => rfl, fun _ => rfl⟩
    | ok bs => exact ⟨_, _, complete_eq s _ _, fun _ => rfl, fun _ => rfl⟩
  | digest => exact ⟨_, _, complete_eq s _ _, fun h => absurd rfl h, fun _ => ⟨_, rfl⟩⟩
  | reset => exact ⟨_, _, complete_eq s _ _, fun _ => rfl, fun _ => rfl⟩
  | updateByte b => exact ⟨_, _, complete_eq s _ _, fun _ => rfl, fun _ => rfl⟩
  | getName => exact ⟨_, _, complete_eq s _ _, fun h => absurd rfl h, fun _ => rfl⟩
  | getOutlen => exact ⟨_, _, complete_eq s _ _, fun h => absurd rfl h, fun _ => rfl⟩

/-- Settles O24: an illegal word is rejected, and a decoded command answers as exec does. -/
theorem responseOfEveryCommand : Obligations.ResponseOfEveryCommand := by
  intro s r rest hin hduties
  rw [step_command hin hduties, runPacket]
  cases hdec : decode r.packet.word r.packet.bundle with
  | error e => exact ⟨_, _, reject_eq _ _, rfl, rfl, fun _ => rfl, fun h => nomatch h⟩
  | ok i =>
    obtain ⟨c, resp, hexec, herr, hok⟩ := exec_response i { s with inbox := rest }
    refine ⟨_, resp, hexec, rfl, rfl, herr,
      fun h => ⟨i, rfl, ?_, ?_, ?_, ?_, fun b => ?_, fun input o n => ?_⟩⟩ <;> (rintro rfl; exact hok h)

/-! ## Runs of assembled commands -/

/-- A well-formed command that the host issues keeping its duties is run by the very next step. -/
theorem step_plain_encode {i : Instr} (h : i.wellFormed = true) (c : CoreState) (rest : List HostEvent) (out : List Response) :
    step ⟨c, HostEvent.plain (encode i) :: rest, out⟩ = exec i ⟨c, rest, out⟩ := by
  rw [step_command (r := ⟨encode i, []⟩) rfl rfl, runPacket, decodeOfEncode i h]

theorem exec_reset_eq (s : State) :
    exec .reset s = .next ⟨clear s.core, s.inbox, s.outbox ++ [⟨.ok, .empty⟩]⟩ := complete_eq s _ _

theorem exec_updateByte_eq (b : Byte) (s : State) :
    exec (.updateByte b) s = .next ⟨append b s.core, s.inbox, s.outbox ++ [⟨.ok, .empty⟩]⟩ := complete_eq s _ _

theorem exec_digest_eq (s : State) :
    exec .digest s = .next ⟨finalizeState s.core, s.inbox, s.outbox ++ [⟨.ok, .digest (finalizeDigest s.core)⟩]⟩ :=
  complete_eq s _ _

/-- A script that begins with a command that goes on runs from where that command leaves the core. -/
theorem run_script_cons {i : Instr} (h : i.wellFormed = true) {c c' : CoreState} {ps : List Packet} {out out' : List Response}
    (hexec : exec i ⟨c, script ps, out⟩ = .next ⟨c', script ps, out'⟩) (n : Nat) :
    Sys2Proof.core.run (n + 1) ⟨c, script (encode i :: ps), out⟩ = Sys2Proof.core.run n ⟨c', script ps, out'⟩ :=
  run_next _ _ _ ((step_plain_encode h c (script ps) out).trans hexec)

/-- A run of UPDATE_BYTE commands appends their bytes in order (R102, R104). -/
theorem run_updateBytes (bs : List Byte) (c : CoreState) (out : List Response) :
    ∃ out', Sys2Proof.core.run bs.length ⟨c, script (bs.map fun b => encode (.updateByte b)), out⟩ =
      .next ⟨appendAll bs c, [], out'⟩ := by
  induction bs generalizing c out with
  | nil => exact ⟨out, run_zero _⟩
  | cons b bs ih =>
    obtain ⟨out', hrun⟩ := ih (append b c) (out ++ [⟨.ok, .empty⟩])
    exact ⟨out', (run_script_cons rfl (exec_updateByte_eq b _) _).trans hrun⟩

/-- UPDATE_BULK of a whole input is in bounds and appends all of it (R103). -/
theorem exec_updateBulk_all (m : List Byte) (s : State) :
    exec (.updateBulk (some m) 0 m.length) s = .next ⟨appendAll m s.core, s.inbox, s.outbox ++ [⟨.ok, .empty⟩]⟩ := by
  have hbounds : inBounds m 0 m.length = true := by rw [inBounds_iff]; omega
  rw [exec, execUpdateBulk, bulkOperands_ok m _ _ hbounds, inputSlice_all]
  exact complete_eq s _ _

/-- The length of a sequence shorter than 2^31 bytes fits LEN. -/
theorem wellFormed_updateBulk_all {m : List Byte} (h : m.length < 2 ^ 31) :
    (Instr.updateBulk (some m) 0 m.length).wellFormed = true := by
  have hfits : fitsInt32 m.length = true := (fitsInt32_iff _).2 (by omega)
  rw [Instr.wellFormed, hfits]; rfl

/-! ## What the assembler takes and rejects (R79) -/

theorem assembleBulk_of_wellFormed {input : Option (List Byte)} {o n : Int}
    (h : (Instr.updateBulk input o n).wellFormed = true) :
    assembleBulk input o n = .ok [encode (.updateBulk input o n)] :=
  if_pos h

theorem assembleBulk_of_not_wellFormed {input : Option (List Byte)} {o n : Int}
    (h : ¬(Instr.updateBulk input o n).wellFormed = true) : assembleBulk input o n = .error .int32Range :=
  if_neg h

theorem hostSequence_of_lookup {env : HostNames} {name : String} {m : List Byte} (h : env.lookup name = some m) :
    hostSequence env name = .ok m := by
  rw [hostSequence, h]

/-- UPDATE_BULK on a known name is UPDATE_BULK on its sequence (R79). -/
theorem assembleLine_updateBulk_of_lookup {env : HostNames} {name : String} {m : List Byte} (h : env.lookup name = some m)
    (o n : Int) : assembleLine env (.updateBulk (some name) o n) = assembleBulk (some m) o n := by
  rw [assembleLine, hostSequence_of_lookup h]; rfl

/-- Settles O49: the assembler's two checks, that of a byte and that of a 32-bit integer, are R79's ranges. -/
theorem assemblerRanges : Obligations.AssemblerRanges := by
  refine ⟨fun env v => ⟨fun hlow hhigh => ?_, fun hout => ?_⟩, fun env name m o n hname => ?_⟩
  · rw [assembleLine, assembleByte, if_pos ⟨hlow, hhigh⟩]
  · rw [assembleLine, assembleByte, if_neg (by omega)]
  · rw [assembleLine_updateBulk_of_lookup hname]
    have hfits : (Instr.updateBulk (some m) o n).wellFormed = true ↔
        (-2 ^ 31 ≤ o ∧ o ≤ 2 ^ 31 - 1) ∧ -2 ^ 31 ≤ n ∧ n ≤ 2 ^ 31 - 1 := by
      rw [Instr.wellFormed, Bool.and_eq_true, fitsInt32_iff, fitsInt32_iff]
    exact ⟨fun hin => assembleBulk_of_wellFormed (hfits.2 (by omega)),
      fun hout => assembleBulk_of_not_wellFormed (by rw [hfits]; omega)⟩

/-! ## The pseudo-commands (R80) -/

section
variable {env : HostNames} {name : String} {m : List Byte} (hname : env.lookup name = some m) (hlen : m.length < 2 ^ 31)
include hname hlen

/-- UPDATE_ALL is one UPDATE_BULK of the whole sequence. -/
theorem assembleLine_updateAll : assembleLine env (.updateAll name) = .ok [encode (.updateBulk (some m) 0 m.length)] := by
  rw [assembleLine, hostSequence_of_lookup hname]
  exact assembleBulk_of_wellFormed (wellFormed_updateBulk_all hlen)

/-- HASH is RESET, UPDATE_BULK of the whole sequence, DIGEST. -/
theorem assembleLine_hash :
    assembleLine env (.hash name) = .ok [encode .reset, encode (.updateBulk (some m) 0 m.length), encode .digest] := by
  simp only [assembleLine, hostSequence_of_lookup hname, Except.bind,
    assembleBulk_of_wellFormed (wellFormed_updateBulk_all hlen)]
  rfl

end

/-- UPDATE_STR is one UPDATE_BYTE for each character. -/
theorem assembleLine_updateStr (env : HostNames) {chars : List Char} (h : chars.all isAscii = true) :
    assembleLine env (.updateStr chars) = .ok ((chars.map charByte).map fun b => encode (.updateByte b)) := by
  rw [assembleLine, if_pos h, List.map_map]; rfl

/-- Settles O51: both runs append the string's bytes to the core. -/
theorem updateStrIsUpdateAll : Obligations.UpdateStrIsUpdateAll := by
  intro env name chars s hascii hname hlen
  have hbytes : (chars.map charByte).length < 2 ^ 31 := by rwa [List.length_map]
  obtain ⟨out, hstr⟩ := run_updateBytes (chars.map charByte) s.core s.outbox
  have hall := run_script_cons (ps := []) (wellFormed_updateBulk_all hbytes)
    (exec_updateBulk_all _ ⟨s.core, script [], s.outbox⟩) 0
  refine ⟨_, _, ⟨_, [], out⟩, _, assembleLine_updateStr env hascii, assembleLine_updateAll hname hbytes, ?_,
    hall.trans (run_zero _), rfl⟩
  rw [List.length_map]
  exact hstr

/-- RESET clears the core, UPDATE_BULK appends the sequence to the cleared core, and DIGEST answers for a core that has taken in just
that sequence. -/
theorem run_hash {m : List Byte} (h : m.length < 2 ^ 31) (c : CoreState) (out : List Response) :
    Sys2Proof.core.run 3 ⟨c, script [encode .reset, encode (.updateBulk (some m) 0 m.length), encode .digest], out⟩ =
      .next ⟨finalizeState (appendAll m (clear c)), [],
        out ++ [⟨.ok, .empty⟩] ++ [⟨.ok, .empty⟩] ++ [⟨.ok, .digest (digestOf m)⟩]⟩ := by
  have hdigest : finalizeDigest (appendAll m (clear c)) = digestOf m :=
    finalizeDigest_of_hasTaken (hasTaken_appendAll_of_isReset (isReset_clear c) m)
  rw [run_script_cons rfl (exec_reset_eq _), run_script_cons (wellFormed_updateBulk_all h) (exec_updateBulk_all m _),
    run_script_cons rfl (exec_digest_eq _), run_zero, hdigest]
  rfl

/-- Settles O50: the run of HASH's commands, its three responses read off. -/
theorem hashPseudoCommand : Obligations.HashPseudoCommand := fun _ _ m s hname hlen =>
  ⟨_, _, assembleLine_hash hname hlen, run_hash hlen s.core s.outbox, by
    simp only [List.append_assoc, List.cons_append, List.nil_append]⟩

end Sys2Proof.Machine
end

section
/-! PROOFS. The commands' family (spec/40_commands.md), one command at a time: the step that runs it, its whole next state, and what an
update leaves unchanged (R100 to R108). -/

namespace Sys2Proof.Machine

/-! ## A step runs the decoded command (R108) -/

/-- A packet that decodes to a command is run as that command. -/
theorem runPacket_of_decode {p : Packet} {i : Instr} (h : decode p.word p.bundle = .ok i) (s : State) :
    runPacket p s = exec i s := by
  rw [runPacket, h]

/-- Settles O7: no duty is broken, so the step runs the packet, which decodes to the command. -/
theorem stepRunsDecodedCommand : Obligations.StepRunsDecodedCommand := by
  intro s r rest i hin hduties hdec
  rw [step_command hin hduties, runPacket_of_decode hdec]

theorem decodeTableWord_eq_some_iff {nbits w : Nat} {i : Instr} :
    decodeTableWord nbits w = some i ↔ decode (tableWord nbits w) Bundle.nothing = .ok i := by
  rw [decodeTableWord]
  cases decode (tableWord nbits w) Bundle.nothing <;> simp

/-- Settles O9: the word is placed as the next command of a host that keeps its duties. -/
theorem fetchWordRunsNext : Obligations.FetchWordRunsNext := by
  intro s nbits w i hdec
  have hplain : (⟨⟨tableWord nbits w, Bundle.nothing⟩, []⟩ : Request).breach = none := rfl
  exact stepRunsDecodedCommand _ _ s.inbox i rfl hplain (decodeTableWord_eq_some_iff.1 hdec)

/-! ## The next state of each command (R100 to R107) -/

theorem exec_getName_eq (s : State) :
    exec .getName s = .next ⟨s.core, s.inbox, s.outbox ++ [⟨.ok, .name Config.algName⟩]⟩ := complete_eq s _ _

theorem exec_getOutlen_eq (s : State) :
    exec .getOutlen s = .next ⟨s.core, s.inbox, s.outbox ++ [⟨.ok, .outLen 16⟩]⟩ := complete_eq s _ _

/-- An UPDATE_BULK that its operand check rejects is answered with the check's status. -/
theorem exec_updateBulk_of_error {input : Option (List Byte)} {o n : Int} {st : Status}
    (h : bulkOperands input o n = .error st) (s : State) :
    exec (.updateBulk input o n) s = .next ⟨s.core, s.inbox, s.outbox ++ [⟨st, .empty⟩]⟩ := by
  rw [exec, execUpdateBulk, h]
  exact reject_eq s st

/-- An UPDATE_BULK that passes its operand check appends the bytes the check gives. -/
theorem exec_updateBulk_of_ok {input : Option (List Byte)} {o n : Int} {bs : List Byte}
    (h : bulkOperands input o n = .ok bs) (s : State) :
    exec (.updateBulk input o n) s = .next ⟨appendAll bs s.core, s.inbox, s.outbox ++ [⟨.ok, .empty⟩]⟩ := by
  rw [exec, execUpdateBulk, h]
  exact complete_eq s _ _

/-- Settles O13: CLEAR's next state, and CLEAR is idempotent. -/
theorem resetClearsCore : Obligations.ResetClearsCore :=
  ⟨fun _ => rfl, fun s => ⟨_, exec_reset_eq s, rfl, rfl, rfl, _, exec_reset_eq _, rfl⟩⟩

/-- Settles O21: GET_NAME completes with the core as it is. -/
theorem getNameAnswers : Obligations.GetNameAnswers := ⟨fun _ => rfl, exec_getName_eq⟩

/-- Settles O22: GET_OUTLEN completes with the core as it is. -/
theorem getOutlenAnswers : Obligations.GetOutlenAnswers := ⟨fun _ => rfl, exec_getOutlen_eq⟩

/-- The word that R71's pattern of UPDATE_BYTE describes is the encoder's (R70). -/
theorem updateByte_pattern_eq_mkWord (b : Byte) : (0x0000#16 ++ b ++ 0x02#8 : BitVec (16 + 8 + 8)) = mkWord 2 b := by
  apply BitVec.eq_of_toNat_eq
  rw [mkWord_toNat, toNat_append_eq_add, toNat_append_eq_add]
  simp

/-- Settles O14: the encoder's word of UPDATE_BYTE decodes to it, and the two cases are those of APPEND. -/
theorem updateByteAppends : Obligations.UpdateByteAppends := by
  refine ⟨fun b bundle => decode_ok_iff.2 ⟨updateByte_pattern_eq_mkWord b, rfl⟩, fun b s => ⟨fun hroom => ?_, fun hfull => ?_⟩⟩
  · rw [exec_updateByte_eq, append_room b _ hroom]
  · have hbuf : (storeByte b s.core).BUF = s.core.BUF.set 15 b := by simp only [storeByte_BUF, hfull]; rfl
    rw [exec_updateByte_eq, append_full b _ hfull, ← hbuf]
    rfl

/-! ## The buffer and the hash state after appended bytes (R131) -/

theorem append_BLEN_val (b : Byte) (c : CoreState) : (append b c).BLEN.val = (c.BLEN.val + 1) % 16 := by
  by_cases hfull : c.BLEN = 15
  · rw [append_full b c hfull, hfull]; rfl
  · rw [append_room b c hfull]
    exact Fin.val_add c.BLEN 1

theorem append_BUF (b : Byte) (c : CoreState) : (append b c).BUF = c.BUF.set c.BLEN b := by
  by_cases hfull : c.BLEN = 15
  · rw [append_full b c hfull]; rfl
  · rw [append_room b c hfull]

/-- Bytes that leave room in the buffer leave the hash state as it is. -/
theorem sameHash_append_of_room {b : Byte} {c : CoreState} (h : c.BLEN ≠ 15) : (append b c).SameHash c := by
  rw [append_room b c h]
  exact ⟨rfl, rfl, rfl⟩

theorem appendAll_BLEN_val (bs : List Byte) (c : CoreState) :
    (appendAll bs c).BLEN.val = (c.BLEN.val + bs.length) % 16 := by
  induction bs generalizing c with
  | nil => exact (Nat.mod_eq_of_lt c.BLEN.isLt).symm
  | cons b bs ih =>
    rw [appendAll_cons, ih, append_BLEN_val, List.length_cons]
    omega

/-- The byte appended `j`-th goes to BUF[(BLEN + j) mod 16]; the other positions keep their bytes. -/
theorem appendAll_BUF_get_of_ne {bs : List Byte} {c : CoreState} {p : Fin 16}
    (h : ∀ j < bs.length, (c.BLEN.val + j) % 16 ≠ p.val) : (appendAll bs c).BUF[p] = c.BUF[p] := by
  induction bs generalizing c with
  | nil => rfl
  | cons b bs ih =>
    have hfirst : c.BLEN.val ≠ p.val := by
      have h0 := h 0 (Nat.zero_lt_succ _)
      omega
    have hrest : ∀ j < bs.length, ((append b c).BLEN.val + j) % 16 ≠ p.val := fun j hj => by
      have hnext := h (j + 1) (Nat.succ_lt_succ hj)
      rw [append_BLEN_val]
      omega
    rw [appendAll_cons, ih hrest, append_BUF]
    exact Vector.getElem_set_ne c.BLEN.isLt p.isLt hfirst

theorem sameHash_appendAll_of_room {bs : List Byte} {c : CoreState} (h : c.BLEN.val + bs.length < 16) :
    (appendAll bs c).SameHash c := by
  induction bs generalizing c with
  | nil => exact ⟨rfl, rfl, rfl⟩
  | cons b bs ih =>
    rw [List.length_cons] at h
    have hroom : c.BLEN ≠ 15 := by omega
    obtain ⟨hC, hL, hX⟩ := sameHash_append_of_room (b := b) hroom
    obtain ⟨hC', hL', hX'⟩ := ih (c := append b c) (by rw [append_BLEN_val]; omega)
    exact ⟨hC'.trans hC, hL'.trans hL, hX'.trans hX⟩

/-- Settles O23: each form appends `k` bytes, none when it is rejected, and APPEND of `k` bytes has that frame. -/
theorem updateFrame : Obligations.UpdateFrame := by
  intro i s t k hform hexec
  obtain ⟨bs, resp, rfl, hnext⟩ :
      ∃ bs resp, bs.length = k ∧ exec i s = .next ⟨appendAll bs s.core, s.inbox, s.outbox ++ [resp]⟩ := by
    obtain ⟨b, rfl, rfl⟩ | ⟨m, o, n, rfl, hin, rfl⟩ | ⟨m, o, n, rfl, hout, rfl⟩ | ⟨o, n, rfl, rfl⟩ := hform
    · exact ⟨[b], _, rfl, exec_updateByte_eq b s⟩
    · exact ⟨_, _, inputSlice_length m o n hin, exec_updateBulk_of_ok (bulkOperands_ok m o n hin) s⟩
    · exact ⟨[], _, rfl, exec_updateBulk_of_error (bulkOperands_bad m o n hout) s⟩
    · exact ⟨[], _, rfl, exec_updateBulk_of_error (bulkOperands_none o n) s⟩
  obtain rfl := Host.Outcome.next.inj (hexec.symm.trans hnext)
  exact ⟨appendAll_PHASE bs s.core, rfl, ⟨resp, rfl⟩, fun _ => appendAll_BUF_get_of_ne, sameHash_appendAll_of_room⟩

/-! ## UPDATE_BULK in bounds (R103, R52, R56) -/

/-- Settles O15: the bytes appended are the slice of the input. -/
theorem updateBulkAppends : Obligations.UpdateBulkAppends := by
  intro m o n s ho hn hsum
  have hin : inBounds m o n = true := (inBounds_iff m o n).2 ⟨ho, hn, hsum⟩
  have hlen := inputSlice_length m o n hin
  refine ⟨inputSlice m o n, hlen, inputSlice_get m o n, exec_updateBulk_of_ok (bulkOperands_ok m o n hin) s, ?_, ?_⟩
  · rw [appendAll_BLEN_val, hlen]
  · rintro rfl
    rw [List.eq_nil_of_length_eq_zero hlen, appendAll_nil]

/-- The slice is all that `MemRead` gives at o, o+1, ..., o+n-1, in that order (R52). -/
theorem filterMap_memRead_eq_inputSlice {m : List Byte} {o n : Int} (h : inBounds m o n = true) :
    ((List.range n.toNat).filterMap fun k => memRead m (o.toNat + k)) = inputSlice m o n := by
  have hlen := inputSlice_length m o n h
  have hreads : ((List.range n.toNat).map fun k => memRead m (o.toNat + k)) = (inputSlice m o n).map some := by
    refine List.ext_getElem (by simp [hlen]) fun k _ hk => ?_
    rw [List.length_map] at hk
    rw [List.getElem_map, List.getElem_map, List.getElem_range, ← inputSlice_get m o n k (hlen ▸ hk),
      List.getElem?_eq_getElem hk]
  calc ((List.range n.toNat).filterMap fun k => memRead m (o.toNat + k))
    _ = ((List.range n.toNat).map fun k => memRead m (o.toNat + k)).filterMap id := by rw [List.filterMap_map]; rfl
    _ = inputSlice m o n := by rw [hreads, List.filterMap_map]; exact List.filterMap_some

/-- Settles O16: both append the slice to the core. -/
theorem updateBulkIsByteUpdates : Obligations.UpdateBulkIsByteUpdates := by
  intro m o n s ho hn hsum
  have hin : inBounds m o n = true := (inBounds_iff m o n).2 ⟨ho, hn, hsum⟩
  obtain ⟨out, hrun⟩ := run_updateBytes (inputSlice m o n) s.core s.outbox
  rw [inputSlice_length m o n hin] at hrun
  rw [filterMap_memRead_eq_inputSlice hin]
  exact ⟨_, _, exec_updateBulk_of_ok (bulkOperands_ok m o n hin) s, hrun, rfl, rfl⟩

end Sys2Proof.Machine
end

section
/-! PROOFS. The commands' family, sequences of commands: how a message is cut into commands does not matter (R104), and a DIGEST right
after a DIGEST is that of the empty message (R105). -/

namespace Sys2Proof.Machine

/-! ## Scripts that continue a message (R104) -/

/-- A packet that does not run CLEAR appends the bytes it feeds, in every state: none when it is rejected. -/
theorem runPacket_appends_fedBytes {p : Packet} (h : packetClears p = false) (s : State) :
    ∃ resp, runPacket p s = .next ⟨appendAll (packetFedBytes p) s.core, s.inbox, s.outbox ++ [resp]⟩ := by
  simp only [packetClears] at h
  simp only [runPacket, packetFedBytes]
  cases hdec : decode p.word p.bundle with
  | error e => exact ⟨_, reject_eq s _⟩
  | ok i =>
    rw [hdec] at h
    cases i with
    | reset | digest => cases h
    | updateByte b => exact ⟨_, exec_updateByte_eq b s⟩
    | updateBulk input o n =>
      cases hops : bulkOperands input o n with
      | error st => simp only [hops]; exact ⟨_, exec_updateBulk_of_error hops s⟩
      | ok bs => simp only [hops]; exact ⟨_, exec_updateBulk_of_ok hops s⟩
    | getName => exact ⟨_, exec_getName_eq s⟩
    | getOutlen => exact ⟨_, exec_getOutlen_eq s⟩

/-- A step whose next event may come in the middle of a message appends the bytes the event feeds. -/
theorem step_appends_fedBytes {e : HostEvent} (h : e.continuesMessage = true) (c : CoreState) (rest : List HostEvent)
    (out : List Response) : ∃ out', step ⟨c, e :: rest, out⟩ = .next ⟨appendAll e.fedBytes c, rest, out'⟩ := by
  cases e with
  | resetInput => cases h
  | command r =>
    obtain ⟨hduties, hclears⟩ : r.breach = none ∧ packetClears r.packet = false := by
      simpa [HostEvent.continuesMessage] using h
    obtain ⟨resp, hrun⟩ := runPacket_appends_fedBytes hclears ⟨c, rest, out⟩
    exact ⟨_, (step_command rfl hduties).trans hrun⟩

/-- A script of such events, whatever comes after it, runs to its end and appends all the bytes it feeds. -/
theorem run_appends_fedBytes {es : List HostEvent} (h : ∀ e ∈ es, e.continuesMessage = true) (c : CoreState)
    (rest : List HostEvent) (out : List Response) :
    ∃ out', Sys2Proof.core.run es.length ⟨c, es ++ rest, out⟩ =
      .next ⟨appendAll (es.flatMap HostEvent.fedBytes) c, rest, out'⟩ := by
  induction es generalizing c out with
  | nil => exact ⟨out, run_zero _⟩
  | cons e es ih =>
    obtain ⟨he, hes⟩ := List.forall_mem_cons.1 h
    obtain ⟨out₁, hstep⟩ := step_appends_fedBytes he c (es ++ rest) out
    obtain ⟨out₂, hrun⟩ := ih hes (appendAll e.fedBytes c) out₁
    rw [List.flatMap_cons, appendAll_append]
    exact ⟨out₂, (run_next _ _ _ hstep).trans hrun⟩

/-- Settles O40: both scripts, and the one UPDATE_BULK, append the same bytes to the same core. -/
theorem incrementalEquivalence : Obligations.IncrementalEquivalence := by
  intro s es fs hes hfs hbytes
  obtain ⟨out, hrun⟩ := run_appends_fedBytes hes s.core [] s.outbox
  obtain ⟨out', hrun'⟩ := run_appends_fedBytes hfs s.core [] s.outbox
  rw [List.append_nil] at hrun hrun'
  exact ⟨_, _, hrun, hrun', by rw [hbytes], exec_updateBulk_all _ s⟩

/-! ## A second DIGEST (R105, R182) -/

/-- DIGEST leaves a cleared core, which has taken in no byte. -/
theorem hasTaken_nil_finalizeState (c : CoreState) : (finalizeState c).HasTaken [] :=
  hasTaken_nil_of_isReset (isReset_clear (finalizeBlocks c))

/-- Settles O42: the second DIGEST starts from a core that has taken in no byte. -/
theorem repeatedDigestIsEmptyMessage : Obligations.RepeatedDigestIsEmptyMessage := by
  intro s t hexec
  obtain rfl := Host.Outcome.next.inj ((exec_digest_eq s).symm.trans hexec)
  refine ⟨_, exec_digest_eq _, ?_⟩
  rw [finalizeDigest_of_hasTaken (hasTaken_nil_finalizeState s.core)]

/-- Settles O43: the one padding block of the empty message and its checksum, evaluated in the kernel. -/
theorem emptyMessageDigest : Obligations.EmptyMessageDigest := by
  unfold Obligations.EmptyMessageDigest
  decide +kernel

end Sys2Proof.Machine
end

section
/-! PROOFS. The block buffer's family (spec/41_block_buffer.md): PROCESS_BLOCK's two halves (R132), the blocks of a message (R134), and
the stale bytes of the buffer, which no step shows (R136). -/

namespace Sys2Proof.Machine

/-! ## The two halves of PROCESS_BLOCK (R132) -/

/-- CKS_UPDATE reads and writes C and L, COMPRESS reads and writes X, so they commute. -/
theorem cksUpdate_compress_comm (M : Block) (c : CoreState) : cksUpdate M (compress M c) = compress M (cksUpdate M c) := rfl

/-- Settles O36: the two halves commute, and the frame is that of PROCESS_BLOCK. -/
theorem processBlockOrder : Obligations.ProcessBlockOrder := fun M c =>
  ⟨rfl, (cksUpdate_compress_comm M c).symm, processBlock_BUF M c, processBlock_BLEN M c, processBlock_PHASE M c⟩

/-! ## The blocks of a message (R134) -/

/-- PROCESS_BLOCK on the blocks of a message reads nothing of the core but its hash state. -/
theorem sameHash_processBlocks {c d : CoreState} (h : c.SameHash d) (m : List Byte) (q : Nat) :
    (processBlocks m q c).SameHash (processBlocks m q d) := by
  induction q with
  | zero => exact h
  | succ q ih =>
    rw [processBlocks_succ, processBlocks_succ]
    exact sameHash_processBlock ih _

/-- A cleared core has the hash state of power-on. -/
theorem sameHash_reset_of_isReset {c : CoreState} (h : c.IsReset) : CoreState.reset.SameHash c := by
  obtain ⟨-, hC, hL, hX, -⟩ := h
  exact ⟨hC.symm, hL.symm, hX.symm⟩

/-- The pending bytes of a core that has taken in `m` are the last BLEN bytes of `m`. -/
theorem getElem?_eq_pending_of_hasTaken {c : CoreState} {m : List Byte} (h : c.HasTaken m) {i : Fin 16} (hi : i < c.BLEN) :
    m[m.length - c.BLEN.val + i.val]? = some c.BUF[i] := by
  have hcount := h.count
  have hpend : i.val < c.BLEN.val := hi
  have hstart : m.length - c.BLEN.val = 16 * (m.length / 16) := by omega
  have hin : 16 * (m.length / 16) + i.val < m.length := by omega
  rw [hstart, Fin.getElem_fin, h.pending i i.isLt hpend, List.getD_eq_getElem _ _ hin, List.getElem?_eq_getElem hin]

/-- Settles O39: the core has taken in `m`, and the hash state PROCESS_BLOCK starts from is that of power-on. -/
theorem blocksOfMessage : Obligations.BlocksOfMessage := by
  intro m c hreset
  have htaken := hasTaken_appendAll_of_isReset hreset m
  obtain ⟨hC, hL, hX⟩ := htaken.hash
  obtain ⟨hC', hL', hX'⟩ := sameHash_processBlocks (sameHash_reset_of_isReset hreset) m (m.length / 16)
  obtain ⟨-, -, -, -, hphase⟩ := hreset
  exact ⟨htaken.count, fun _ => getElem?_eq_pending_of_hasTaken htaken, hC.trans hC', hL.trans hL', hX.trans hX',
    (appendAll_PHASE m c).trans hphase⟩

/-! ## The stale bytes of the buffer (R136) -/

theorem sameHash_of_sameButStale {c d : CoreState} (h : c.SameButStale d) : c.SameHash d := by
  obtain ⟨-, hC, hL, hX, -, -⟩ := h
  exact ⟨hC, hL, hX⟩

/-- CLEAR makes every byte of BUF stale and writes every other field, so any two cores it leaves differ in stale bytes only. -/
theorem sameButStale_clear (c d : CoreState) : (clear c).SameButStale (clear d) :=
  ⟨rfl, rfl, rfl, rfl, rfl, fun i hi => absurd hi (Nat.not_lt_zero i.val)⟩

/-- The first step of APPEND writes the first stale byte. -/
theorem storeByte_get_of_sameButStale {c d : CoreState} (h : c.SameButStale d) (b : Byte) {i : Nat} (hi : i < 16)
    (hle : i ≤ c.BLEN.val) : (storeByte b c).BUF[i] = (storeByte b d).BUF[i] := by
  obtain ⟨hblen, -, -, -, -, hvalid⟩ := h
  simp only [storeByte_BUF, ← hblen]
  obtain hlt | rfl := Nat.lt_or_eq_of_le hle
  · rw [Vector.getElem_set_ne _ _ (by omega), Vector.getElem_set_ne _ _ (by omega)]
    exact hvalid ⟨i, hi⟩ hlt
  · rw [Vector.getElem_set_self, Vector.getElem_set_self]

/-- A byte that leaves room becomes a valid byte of both buffers. -/
theorem sameButStale_append_of_room {c d : CoreState} (h : c.SameButStale d) (b : Byte) (hroom : c.BLEN ≠ 15) :
    (append b c).SameButStale (append b d) := by
  have hget {i : Nat} (hi : i < 16) := storeByte_get_of_sameButStale h b hi
  obtain ⟨hblen, hC, hL, hX, hphase, -⟩ := h
  rw [append_room b c hroom, append_room b d (hblen ▸ hroom)]
  refine ⟨congrArg (· + 1) hblen, hC, hL, hX, hphase, fun i hi => hget i.isLt ?_⟩
  have hlt : i.val < (c.BLEN + 1).val := hi
  omega

/-- A byte that fills the buffer leaves no stale byte, so both cores process the same block. -/
theorem sameButStale_append_of_full {c d : CoreState} (h : c.SameButStale d) (b : Byte) (hfull : c.BLEN = 15) :
    (append b c).SameButStale (append b d) := by
  have hbuf : (storeByte b c).BUF = (storeByte b d).BUF := by
    ext1 i hi
    exact storeByte_get_of_sameButStale h b hi (by rw [hfull]; exact Nat.le_of_lt_succ hi)
  obtain ⟨hC, hL, hX⟩ := sameHash_processBlock (sameHash_of_sameButStale h) (storeByte b c).BUF
  obtain ⟨hblen, -, -, -, hphase, -⟩ := h
  rw [append_full b c hfull, append_full b d (hblen ▸ hfull), ← hbuf]
  exact ⟨rfl, hC, hL, hX, hphase, fun i hi => absurd hi (Nat.not_lt_zero i.val)⟩

theorem sameButStale_append {c d : CoreState} (h : c.SameButStale d) (b : Byte) :
    (append b c).SameButStale (append b d) := by
  by_cases hfull : c.BLEN = 15
  · exact sameButStale_append_of_full h b hfull
  · exact sameButStale_append_of_room h b hfull

theorem sameButStale_appendAll {c d : CoreState} (h : c.SameButStale d) (bs : List Byte) :
    (appendAll bs c).SameButStale (appendAll bs d) := by
  induction bs generalizing c d with
  | nil => exact h
  | cons b bs ih => exact ih (sameButStale_append h b)

/-- PAD overwrites every stale byte (R181). -/
theorem padBlock_eq_of_sameButStale {c d : CoreState} (h : c.SameButStale d) :
    padBlock c.BUF c.BLEN = padBlock d.BUF d.BLEN := by
  obtain ⟨hblen, -, -, -, -, hvalid⟩ := h
  rw [← hblen]
  ext1 i hi
  obtain hlt | hge := Nat.lt_or_ge i c.BLEN.val
  · rw [padBlock_data _ _ _ hlt, padBlock_data _ _ _ hlt]
    exact hvalid ⟨i, hi⟩ hlt
  · rw [padBlock_padding _ _ _ hi hge, padBlock_padding _ _ _ hi hge]

/-- FINALIZE processes the padded block, so its digest shows no stale byte (R182). -/
theorem finalizeDigest_eq_of_sameButStale {c d : CoreState} (h : c.SameButStale d) :
    finalizeDigest c = finalizeDigest d := by
  apply extract_compress_C_of_sameHash
  rw [pad_BUF, pad_BUF, padBlock_eq_of_sameButStale h]
  exact sameHash_processBlock (sameHash_of_sameButStale h) _

/-! ## Outcomes a host cannot tell apart (R36) -/

/-- The same response, with cores that differ at most in stale bytes. -/
theorem outcomeSameForHost_respond {s t : State} (h : s.SameForHost t) {c d : CoreState} (hcore : c.SameButStale d)
    (r : Response) :
    OutcomeSameForHost (.next ⟨c, s.inbox, s.outbox ++ [r]⟩) (.next ⟨d, t.inbox, t.outbox ++ [r]⟩) := by
  obtain ⟨-, hin, hout⟩ := h
  exact ⟨hcore, hin, congrArg (· ++ [r]) hout⟩

/-- No command shows a stale byte: DIGEST, the one command whose response depends on the core, overwrites them first. -/
theorem exec_sameForHost {s t : State} (h : s.SameForHost t) (i : Instr) : OutcomeSameForHost (exec i s) (exec i t) := by
  have ⟨hcore, _, _⟩ := h
  cases i with
  | reset =>
    rw [exec_reset_eq, exec_reset_eq]
    exact outcomeSameForHost_respond h (sameButStale_clear _ _) _
  | updateByte b =>
    rw [exec_updateByte_eq, exec_updateByte_eq]
    exact outcomeSameForHost_respond h (sameButStale_append hcore b) _
  | updateBulk input o n =>
    cases hops : bulkOperands input o n with
    | error st =>
      rw [exec_updateBulk_of_error hops, exec_updateBulk_of_error hops]
      exact outcomeSameForHost_respond h hcore _
    | ok bs =>
      rw [exec_updateBulk_of_ok hops, exec_updateBulk_of_ok hops]
      exact outcomeSameForHost_respond h (sameButStale_appendAll hcore bs) _
  | digest =>
    rw [exec_digest_eq, exec_digest_eq, finalizeDigest_eq_of_sameButStale hcore]
    exact outcomeSameForHost_respond h (sameButStale_clear _ _) _
  | getName =>
    rw [exec_getName_eq, exec_getName_eq]
    exact outcomeSameForHost_respond h hcore _
  | getOutlen =>
    rw [exec_getOutlen_eq, exec_getOutlen_eq]
    exact outcomeSameForHost_respond h hcore _

theorem runPacket_sameForHost {s t : State} (h : s.SameForHost t) (p : Packet) :
    OutcomeSameForHost (runPacket p s) (runPacket p t) := by
  have ⟨hcore, _, _⟩ := h
  cases hdec : decode p.word p.bundle with
  | error e =>
    rw [runPacket, runPacket, hdec]
    exact outcomeSameForHost_respond h hcore _
  | ok i =>
    rw [runPacket_of_decode hdec, runPacket_of_decode hdec]
    exact exec_sameForHost h i

/-- A command is refused for what the host did during it, and no refusal looks at the state (R236). -/
theorem runRequest_sameForHost {s t : State} (h : s.SameForHost t) (r : Request) :
    OutcomeSameForHost (runRequest r s) (runRequest r t) := by
  cases hbreach : r.breach with
  | none =>
    rw [runRequest_of_breach_none hbreach, runRequest_of_breach_none hbreach]
    exact runPacket_sameForHost h r.packet
  | some reason =>
    rw [runRequest, runRequest, hbreach]
    exact rfl

theorem runEvent_sameForHost {s t : State} (h : s.SameForHost t) (e : HostEvent) :
    OutcomeSameForHost (runEvent e s) (runEvent e t) := by
  cases e with
  | command r => exact runRequest_sameForHost h r
  | resetInput =>
    obtain ⟨-, hin, hout⟩ := h
    exact ⟨sameButStale_clear _ _, hin, hout⟩

/-- Settles O44: both states have the same next event, or none, and no event shows a stale byte. -/
theorem staleBytesUnobservable : Obligations.StaleBytesUnobservable := by
  intro s t h
  obtain ⟨hcore, hin, hout⟩ := h
  cases hs : s.inbox with
  | nil =>
    rw [step_idle s hs, step_idle t (hin ▸ hs)]
    exact ⟨hcore, hin, hout⟩
  | cons e rest =>
    rw [step_event s e rest hs, step_event t e rest (hin ▸ hs)]
    have hrest : State.SameForHost { s with inbox := rest } { t with inbox := rest } := ⟨hcore, rfl, hout⟩
    exact runEvent_sameForHost hrest e

end Sys2Proof.Machine
end

section
/-! PROOFS. The family of the checksum and the compression (spec/42_checksum_compression.md): the recurrences of CKS_UPDATE (R152, R153)
and of COMPRESS (R155 to R157), and their lookup counts (R158). -/

namespace Sys2Proof.Machine

/-! ## CKS_UPDATE (R152, R153) -/

/-- Each byte CKS_UPDATE's loop writes comes from the old byte there and the byte written just before it, at first the carry (R152). -/
theorem cksLoop_get (M C : Block) (l : Byte) (i : Fin 16) :
    (cksLoop M C l).1[i.val] =
      C[i.val] ^^^ sbox (M[i.val] ^^^ (if i.val = 0 then l else (cksLoop M C l).1[i.val - 1])) := by
  rw [cksLoop_eq_sweep]
  exact sweep_all _ _ i

/-- Settles O32: the recurrence and the last carry are those of the loop, which writes C and L alone. -/
theorem checksumUpdateRecurrence : Obligations.ChecksumUpdateRecurrence := fun M c =>
  ⟨cksLoop_get M c.C c.L, cksLoop_carry_eq_last M c.C c.L,
    cksUpdate_BUF M c, cksUpdate_BLEN M c, cksUpdate_X M c, cksUpdate_PHASE M c⟩

/-- Where the carry is the last checksum byte already, writing that byte to L changes nothing. -/
theorem withLastByte_eq_self {c : CoreState} (h : c.L = c.C[15]) : { c with L := c.C[15] } = c := by
  rw [← h]

/-- Settles O33: CKS_UPDATE and CLEAR both leave L = C[15]. -/
theorem checksumFromLastByte : Obligations.ChecksumFromLastByte := by
  refine ⟨fun M N c => ?_, fun N c => ?_⟩
  · rw [withLastByte_eq_self (cksLoop_carry_eq_last M c.C c.L)]
  · obtain ⟨-, hcarry⟩ := betweenCommands_clear c
    rw [withLastByte_eq_self hcarry]

/-! ## COMPRESS_LOAD and EXTRACT (R155, R157, R183) -/

/-- COMPRESS_LOAD reads X[0..15] only: it overwrites the other two thirds with the block and with X[0..15] XOR the block. -/
theorem loadWorkspace_eq_of_X0 (M : Block) {X Y : Workspace} (h : ∀ i : Fin 16, X[i.val] = Y[i.val]) :
    loadWorkspace M X = loadWorkspace M Y := by
  ext1 k hk
  by_cases hX0 : k < 16
  · rw [loadWorkspace_X0 M X k hX0, loadWorkspace_X0 M Y k hX0]
    exact h ⟨k, hX0⟩
  by_cases hX1 : k < 32
  · obtain ⟨i, rfl⟩ := Nat.exists_eq_add_of_le (Nat.le_of_not_lt hX0)
    rw [loadWorkspace_X1 M X i (by omega), loadWorkspace_X1 M Y i (by omega)]
  · obtain ⟨i, rfl⟩ := Nat.exists_eq_add_of_le (Nat.le_of_not_lt hX1)
    have hi : i < 16 := by omega
    rw [loadWorkspace_X2 M X i hi, loadWorkspace_X2 M Y i hi]
    exact congrArg (· ^^^ M[i]) (h ⟨i, hi⟩)

theorem extract_get (c : CoreState) (i : Fin 16) : (extract c)[i] = c.X[i.val] :=
  Vector.getElem_ofFn i.isLt

/-- Settles O35: COMPRESS reads X through COMPRESS_LOAD, which, like EXTRACT, reads X[0..15] only. -/
theorem compressIgnoresOldThirds : Obligations.CompressIgnoresOldThirds := by
  intro M c d h
  refine ⟨?_, ?_, extract_get c⟩
  · rw [compress_X, compress_X, loadWorkspace_eq_of_X0 M h]
  · ext1 i hi
    calc (extract c)[i]
      _ = c.X[i] := extract_get c ⟨i, hi⟩
      _ = d.X[i] := h ⟨i, hi⟩
      _ = (extract d)[i] := (extract_get d ⟨i, hi⟩).symm

/-! ## The passes of COMPRESS (R156) -/

theorem onePass_eq_sweep (p : Workspace × Byte) (j : Nat) :
    onePass p j =
      let q := sweep (fun _ old t => old ^^^ sbox t) (List.finRange 48) p
      (q.1, q.2 + BitVec.ofNat 8 j) := by
  rw [onePass, passFold_eq_sweep]

/-- Each byte a pass writes comes from the old byte there and the byte written just before it, at first the pass's starting byte. -/
theorem onePass_get (p : Workspace × Byte) (j : Nat) (k : Fin 48) :
    (onePass p j).1[k.val] = p.1[k.val] ^^^ sbox (if k.val = 0 then p.2 else (onePass p j).1[k.val - 1]) := by
  rw [onePass_eq_sweep]
  exact sweep_all _ p k

/-- The byte a pass hands on is the last byte it wrote, plus the pass's number. -/
theorem onePass_carry (p : Workspace × Byte) (j : Nat) :
    (onePass p j).2 = (onePass p j).1[47] + BitVec.ofNat 8 j := by
  rw [onePass_eq_sweep]
  exact congrArg (· + BitVec.ofNat 8 j) (sweep_all_carry _ p (by decide))

/-- The workspace and the running byte at the start of pass `j`, that is, after the passes before it. -/
def atPass (X : Workspace) (j : Nat) : Workspace × Byte := (List.range j).foldl onePass (X, 0)

theorem atPass_zero (X : Workspace) : atPass X 0 = (X, 0) := rfl

theorem atPass_succ (X : Workspace) (j : Nat) : atPass X (j + 1) = onePass (atPass X j) j := by
  simp only [atPass, List.range_succ, List.foldl_append, List.foldl_cons, List.foldl_nil]

theorem passesFrom_eq_atPass (X : Workspace) : passesFrom X = (atPass X 18).1 := by
  rw [passesFrom, atPass]

/-- Settles O34: the sequence runs from the loaded workspace, and each pass makes the next of its members. -/
theorem compressRecurrence : Obligations.CompressRecurrence := by
  intro M c
  refine ⟨atPass (loadWorkspace M c.X), fun i => ?_, rfl, fun j _ => ?_, ?_⟩
  · rw [atPass_zero]
    exact ⟨loadWorkspace_X0 M c.X i i.isLt, loadWorkspace_X1 M c.X i i.isLt, loadWorkspace_X2 M c.X i i.isLt⟩
  · rw [atPass_succ]
    exact ⟨onePass_get _ j, onePass_carry _ j⟩
  · rw [← passesFrom_eq_atPass, compress, compressPasses, compressLoad]

/-! ## The lookup counts (R158) -/

/-- A loop that lists `n` more indices at each position lists `n` times as many indices as it visits positions. -/
theorem foldl_lookups_length {σ ι : Type} {g : List Byte × σ → ι → List Byte × σ} {n : Nat}
    (hg : ∀ q i, (g q i).1.length = q.1.length + n) (ks : List ι) (q : List Byte × σ) :
    (ks.foldl g q).1.length = q.1.length + n * ks.length := by
  induction ks generalizing q with
  | nil => rfl
  | cons k ks ih => rw [List.foldl_cons, ih, hg, List.length_cons, Nat.mul_succ]; omega

theorem cksStepNoted_length (M : Block) (q : List Byte × Block × Byte) (i : Fin 16) :
    (cksStepNoted M q i).1.length = q.1.length + 1 := by
  rw [cksStepNoted_eq, List.length_append, List.length_singleton]

theorem cksStepNoted_snd (M : Block) (q : List Byte × Block × Byte) (i : Fin 16) :
    (cksStepNoted M q i).2 = cksStep M q.2 i := by
  rw [cksStepNoted_eq]

theorem passStepNoted_length (q : List Byte × Workspace × Byte) (k : Fin 48) :
    (passStepNoted q k).1.length = q.1.length + 1 := by
  rw [passStepNoted_eq, List.length_append, List.length_singleton]

theorem passStepNoted_snd (q : List Byte × Workspace × Byte) (k : Fin 48) :
    (passStepNoted q k).2 = passStep q.2 k := by
  rw [passStepNoted_eq]

theorem passLookups_length (q : List Byte × Workspace × Byte) (j : Nat) :
    (passLookups q j).1.length = q.1.length + 48 := by
  rw [passLookups, foldl_lookups_length passStepNoted_length, List.length_finRange]

theorem passLookups_snd (q : List Byte × Workspace × Byte) (j : Nat) : (passLookups q j).2 = onePass q.2 j := by
  rw [passLookups, onePass, ← List.foldl_hom Prod.snd fun q k => (passStepNoted_snd q k).symm]

/-- CKS_UPDATE's twin lists one index for each of its 16 positions. -/
theorem cksLookups_length (M C : Block) (l : Byte) : (cksLookups M C l).1.length = 16 := by
  rw [cksLookups, foldl_lookups_length (cksStepNoted_length M), List.length_finRange]; rfl

theorem cksLookups_snd (M C : Block) (l : Byte) : (cksLookups M C l).2 = cksLoop M C l := by
  rw [cksLookups, cksLoop, ← List.foldl_hom Prod.snd fun q i => (cksStepNoted_snd M q i).symm]

/-- COMPRESS's twin lists 48 indices in each of its 18 passes. -/
theorem compressLookups_length (X : Workspace) : (compressLookups X).1.length = 864 := by
  rw [compressLookups, foldl_lookups_length passLookups_length, List.length_range]; rfl

theorem compressLookups_workspace (X : Workspace) : (compressLookups X).2.1 = passesFrom X := by
  rw [compressLookups, passesFrom, ← List.foldl_hom Prod.snd fun q j => (passLookups_snd q j).symm]

/-- Settles O37: 16 positions of one lookup each, and 18 passes of 48. -/
theorem lookupCounts : Obligations.LookupCounts :=
  ⟨fun M C l => ⟨cksLookups_length M C l, cksLookups_snd M C l⟩,
    fun X => ⟨compressLookups_length X, compressLookups_workspace X⟩⟩

end Sys2Proof.Machine
end

section
/-! PROOFS. The finalization family (spec/43_finalization.md): the padded block (R181), the steps of FINALIZE (R180, R182, R183), and
the digest as a function of the bytes fed (R184). -/

namespace Sys2Proof.Machine

/-! ## PAD (R181) -/

/-- The padding length, at most 16, fits in a byte. -/
theorem padByte_toNat (blen : Fin 16) : (padByte blen).toNat = 16 - blen.val := by
  rw [padByte, BitVec.toNat_ofNat]
  exact Nat.mod_eq_of_lt (by omega)

/-- Settles O38: below BLEN the padded block has the data, from BLEN on the padding byte. -/
theorem padFillsBuffer : Obligations.PadFillsBuffer := by
  intro c
  refine ⟨fun i hi => padBlock_data c.BUF c.BLEN i hi, fun i hi => ?_, by omega, by omega, rfl⟩
  calc (padBlock c.BUF c.BLEN)[i.val].toNat
    _ = (padByte c.BLEN).toNat := by rw [padBlock_padding _ _ _ i.isLt hi]
    _ = 16 - c.BLEN.val := padByte_toNat c.BLEN

/-! ## The steps of FINALIZE (R180, R182, R183) -/

/-- Both cases of the padded block in one equation. -/
theorem padBlock_get (buf : Block) (blen i : Fin 16) :
    (padBlock buf blen)[i] = if i.val < blen.val then buf[i] else padByte blen := by
  split
  · next hlt => exact padBlock_data buf blen i hlt
  · next hge => exact padBlock_padding buf blen i i.isLt (Nat.le_of_not_lt hge)

/-- FINALIZE stays in Finalizing until its CLEAR (R26). -/
theorem finalizeBlocks_PHASE (c : CoreState) : (finalizeBlocks c).PHASE = .finalizing := rfl

/-- CLEAR leaves PAD's block in BUF. -/
theorem finalizeState_eq (c : CoreState) :
    finalizeState c = ⟨padBlock c.BUF c.BLEN, 0, Vector.replicate 16 0, 0, Vector.replicate 48 0, .accumulating⟩ := rfl

/-- Settles O20: the padded block and the states after PAD, PROCESS_BLOCK and COMPRESS are those of FINALIZE. -/
theorem digestSequence : Obligations.DigestSequence := by
  intro s
  refine ⟨padBlock s.core.BUF s.core.BLEN, finalizeDigest s.core, _, _, finalizeBlocks s.core,
    padBlock_get s.core.BUF s.core.BLEN, rfl, rfl, rfl, rfl, finalizeBlocks_PHASE s.core, extract_get _, ?_⟩
  rw [exec_digest_eq, finalizeState_eq]

/-! ## The digest of the bytes fed (R184) -/

/-- A DIGEST after a script that continues a message finalizes the core to which all the bytes the script feeds were appended. -/
theorem run_digest_of_fedBytes {es : List HostEvent} (h : ∀ e ∈ es, e.continuesMessage = true) (c : CoreState)
    (out : List Response) :
    ∃ out', Sys2Proof.core.run (es.length + 1) ⟨c, es ++ [HostEvent.plain (encode .digest)], out⟩ =
      .next ⟨finalizeState (appendAll (es.flatMap HostEvent.fedBytes) c), [],
        out' ++ [⟨.ok, .digest (finalizeDigest (appendAll (es.flatMap HostEvent.fedBytes) c))⟩]⟩ := by
  obtain ⟨out', hfeed⟩ := run_appends_fedBytes h c [HostEvent.plain (encode .digest)] out
  refine ⟨out', ?_⟩
  rw [run_add _ _ _ _ hfeed, run_next _ _ _ ((step_plain_encode rfl _ _ _).trans (exec_digest_eq _)), run_zero]

/-- Settles O41: the core DIGEST finalizes has taken in exactly the bytes fed, and CLEAR comes last. -/
theorem digestOfBytesFed : Obligations.DigestOfBytesFed := by
  intro s es hreset hes
  obtain ⟨out, hrun⟩ := run_digest_of_fedBytes hes s.core s.outbox
  rw [finalizeDigest_of_hasTaken (hasTaken_appendAll_of_isReset hreset _)] at hrun
  exact ⟨_, hrun, List.getLast?_concat, isReset_clear _⟩

end Sys2Proof.Machine
end

section
/-! PROOFS. The exceptions' family (spec/60_exceptions.md): the one status with which each command is answered (R200 to R206), what a
rejection leaves unchanged (R205), and runs that go on (R204, R218). -/

namespace Sys2Proof.Machine

/-! ## The status of a decoded command (R201, R202, R204) -/

/-- The status with which a decoded command is answered: only UPDATE_BULK can be rejected, for NULL before bounds (R206). -/
def commandStatus : Instr → Status
  | .updateBulk none _ _ => .nullInput
  | .updateBulk (some m) o n => if inBounds m o n then .ok else .invalidArgument
  | .reset | .updateByte _ | .digest | .getName | .getOutlen => .ok

/-- Every command appends one response, of its status; a status other than OK leaves the core and empties the payload. -/
theorem exec_answers_commandStatus (i : Instr) (s : State) :
    ∃ c p, exec i s = .next ⟨c, s.inbox, s.outbox ++ [⟨commandStatus i, p⟩]⟩ ∧
      (commandStatus i ≠ .ok → c = s.core ∧ p = .empty) := by
  cases i with
  | reset => exact ⟨_, _, exec_reset_eq s, fun h => absurd rfl h⟩
  | updateByte b => exact ⟨_, _, exec_updateByte_eq b s, fun h => absurd rfl h⟩
  | updateBulk input o n =>
    cases input with
    | none => exact ⟨_, _, exec_updateBulk_of_error (bulkOperands_none o n) s, fun _ => ⟨rfl, rfl⟩⟩
    | some m =>
      cases hbounds : inBounds m o n with
      | false =>
        rw [commandStatus, hbounds]
        exact ⟨_, _, exec_updateBulk_of_error (bulkOperands_bad m o n hbounds) s, fun _ => ⟨rfl, rfl⟩⟩
      | true =>
        rw [commandStatus, hbounds]
        exact ⟨_, _, exec_updateBulk_of_ok (bulkOperands_ok m o n hbounds) s, fun h => absurd rfl h⟩
  | digest => exact ⟨_, _, exec_digest_eq s, fun h => absurd rfl h⟩
  | getName => exact ⟨_, _, exec_getName_eq s, fun h => absurd rfl h⟩
  | getOutlen => exact ⟨_, _, exec_getOutlen_eq s, fun h => absurd rfl h⟩

/-- A command is rejected with an error status exactly when that is its status. -/
theorem exec_rejects_iff {st : Status} (hst : st ≠ .ok) (i : Instr) (s : State) :
    exec i s = .next ⟨s.core, s.inbox, s.outbox ++ [⟨st, .empty⟩]⟩ ↔ commandStatus i = st := by
  obtain ⟨c, p, hexec, hframe⟩ := exec_answers_commandStatus i s
  constructor
  · intro h
    have hnext := Host.Outcome.next.inj (hexec.symm.trans h)
    have hresp : (⟨commandStatus i, p⟩ : Response) = ⟨st, .empty⟩ := by simpa using congrArg State.outbox hnext
    exact congrArg Response.status hresp
  · rintro rfl
    obtain ⟨rfl, rfl⟩ := hframe hst
    exact hexec

/-- The bounds check of an input that is present, in R201's own words. -/
theorem commandStatus_updateBulk_some (m : List Byte) (o n : Int) :
    commandStatus (.updateBulk (some m) o n) =
      if o < 0 ∨ n < 0 ∨ o + n > m.length then .invalidArgument else .ok := by
  have hbad : (o < 0 ∨ n < 0 ∨ o + n > m.length) ↔ ¬inBounds m o n = true := by rw [inBounds_iff]; omega
  rw [commandStatus]
  simp only [hbad, ite_not]

theorem commandStatus_eq_nullInput_iff (i : Instr) : commandStatus i = .nullInput ↔ ∃ o n, i = .updateBulk none o n := by
  cases i with
  | updateBulk input o n =>
    cases input with
    | none => exact iff_of_true rfl ⟨o, n, rfl⟩
    | some m => rw [commandStatus]; split <;> simp
  | reset | updateByte b | digest | getName | getOutlen => simp [commandStatus]

/-- A word other than UPDATE_BULK's never decodes to a command that can be rejected. -/
theorem commandStatus_of_decode {w : CmdWord} {b : Bundle} {i : Instr} (hw : w ≠ 3) (h : decode w b = .ok i) :
    commandStatus i = .ok := by
  cases i with
  | updateBulk input o n => exact absurd (word_of_decode_updateBulk h) hw
  | reset | updateByte b | digest | getName | getOutlen => rfl

/-! ## Illegal words (R203) -/

/-- A packet whose word is illegal is rejected with IllegalCommand. -/
theorem runPacket_of_illegal {p : Packet} {e : Illegal} (h : decode p.word p.bundle = .error e) (s : State) :
    runPacket p s = .next ⟨s.core, s.inbox, s.outbox ++ [⟨.illegalCommand, .empty⟩]⟩ := by
  rw [runPacket, h]
  exact reject_eq s _

/-- No row of R71's table matches a word exactly when the word does not decode, with whatever bundle. -/
theorem no_row_matches_iff (w : CmdWord) (b : Bundle) :
    (opcodeRows.all fun row => !row.matchesWord w) = true ↔ ∃ e, decode w b = .error e := by
  obtain ⟨-, hdecodes, -⟩ := decodeMatchesOneTableRow w b
  have hnone : (opcodeRows.all fun row => !row.matchesWord w) = true ↔ ¬∃ i, decode w b = .ok i := by
    rw [hdecodes]; simp
  rw [hnone]
  cases decode w b <;> simp

/-- Settles O8: the packet is rejected, and no bundle makes an illegal word legal. -/
theorem illegalWordAnswered : Obligations.IllegalWordAnswered := by
  intro s r rest e hin hduties hdec
  refine ⟨?_, fun b => ?_⟩
  · rw [step_command hin hduties, runPacket_of_illegal hdec]
  · rw [decode_eq_map_readBundle _ b r.packet.bundle, hdec]; rfl

/-! ## One status per command (R200 to R202, R206) -/

/-- Settles O25: the four codes, read off their definition. -/
theorem statusCodes : Obligations.StatusCodes := ⟨rfl, rfl, rfl, rfl⟩

/-- Settles O17: a rejection is the command's status, and the status is R201's condition. -/
theorem invalidArgumentExactly : Obligations.InvalidArgumentExactly := by
  intro m o n s
  rw [exec_rejects_iff (by decide), commandStatus_updateBulk_some]
  simp only [ite_eq_left_iff, reduceCtorEq, imp_false, not_not]

/-- Settles O18: a rejection is the command's status, which is NullInput for UPDATE_BULK of NULL only. -/
theorem nullInputExactly : Obligations.NullInputExactly := fun i s =>
  (exec_rejects_iff (by decide) i s).trans (commandStatus_eq_nullInput_iff i)

/-- Settles O19: the word alone decides between IllegalCommand and a decoded command, which is answered with its status. -/
theorem statusPriority : Obligations.StatusPriority := by
  intro s r rest hin hduties
  rw [step_command hin hduties]
  cases hdec : decode r.packet.word r.packet.bundle with
  | error e =>
    refine ⟨_, _, runPacket_of_illegal hdec _, rfl, fun _ => rfl, ?_⟩
    rw [if_pos ((no_row_matches_iff _ _).2 ⟨e, hdec⟩)]
  | ok i =>
    obtain ⟨c, p, hexec, hframe⟩ := exec_answers_commandStatus i { s with inbox := rest }
    refine ⟨_, _, (runPacket_of_decode hdec _).trans hexec, rfl, fun h => (hframe h).1, ?_⟩
    have hlegal : ¬(opcodeRows.all fun row => !row.matchesWord r.packet.word) = true := by
      rw [no_row_matches_iff _ r.packet.bundle, hdec]; simp
    rw [if_neg hlegal]
    by_cases hword : r.packet.word = 3
    · obtain rfl := Except.ok.inj (hdec.symm.trans ((bundleReadOnlyByBulk _ _ r.packet.bundle).2 hword))
      rw [if_neg (not_not.2 hword)]
      cases r.packet.bundle.input with
      | none => rfl
      | some m => exact commandStatus_updateBulk_some m _ _
    · rw [if_pos hword]
      exact commandStatus_of_decode hword hdec

/-! ## What a rejection leaves unchanged (R205) -/

/-- Settles O26: of all that a step can do, the reset input answers nothing, and a command that answers an error leaves the core. -/
theorem rejectionLeavesCore : Obligations.RejectionLeavesCore := by
  intro s t resp hstep hout herr
  obtain ⟨-, rfl⟩ | ⟨rest, -, rfl⟩ | ⟨r, rest, -, -, -, rfl⟩ | ⟨r, rest, i, -, -, -, hexec⟩ := step_next_cases s t hstep
  · rfl
  · simp at hout
  · rfl
  · obtain ⟨c, resp', hnext, hframe⟩ := exec_next i ⟨s.core, rest, s.outbox⟩
    obtain rfl := Host.Outcome.next.inj (hnext.symm.trans hexec)
    obtain rfl : resp' = resp := by simpa using hout
    exact (hframe herr).1

/-! ## Steps and runs that go on (R204, R218, R237) -/

/-- Settles O10: a step with nothing issued is idle. -/
theorem idleKeepsState : Obligations.IdleKeepsState := step_idle

/-- While the host keeps its duties a step goes on and takes one event, if there is one. -/
theorem step_takes_event {s : State} (h : ∀ e ∈ s.inbox, e.keepsDuties = true) :
    ∃ t, step s = .next t ∧ t.inbox = s.inbox.drop 1 := by
  cases hin : s.inbox with
  | nil => exact ⟨s, step_idle s hin, hin⟩
  | cons e rest =>
    cases e with
    | resetInput => exact ⟨_, step_event s _ rest hin, rfl⟩
    | command r =>
      have hduties : r.breach = none := Option.isNone_iff_eq_none.1 (h (.command r) (hin ▸ List.mem_cons_self))
      obtain ⟨t, -, hstep, -, hrest, -⟩ := responseOfEveryCommand s r rest hin hduties
      exact ⟨t, hstep, hrest⟩

/-- Settles O28, by induction on the number of steps: what is left of a script that breaks no duty breaks none. -/
theorem dutifulRunsComplete : Obligations.DutifulRunsComplete := by
  intro n
  induction n with
  | zero => exact fun s _ => ⟨s, run_zero s, rfl⟩
  | succ n ih =>
    intro s h
    obtain ⟨t, hstep, htaken⟩ := step_takes_event h
    have hleft : ∀ e ∈ t.inbox, e.keepsDuties = true := fun e he => h e (List.mem_of_mem_drop (htaken ▸ he))
    obtain ⟨u, hrun, hdrop⟩ := ih t hleft
    refine ⟨u, (run_next n s t hstep).trans hrun, ?_⟩
    rw [hdrop, htaken, List.drop_drop, Nat.add_comm]

end Sys2Proof.Machine
end

section
/-! PROOFS. The family of reset and hazards (spec/70_reset_and_hazards.md): the state at power-on and after the reset input (R230, R231),
a core after a DIGEST against one fresh from power-on (R233), and the host's duties (R236). -/

namespace Sys2Proof.Machine

/-! ## Reset states (R230, R231) -/

/-- Power-on leaves the state that CLEAR leaves (R230). -/
theorem isReset_reset : State.reset.core.IsReset := isReset_clear CoreState.reset

/-- Settles O12: the reset state is one that CLEAR leaves, read byte by byte. -/
theorem powerOnState : Obligations.PowerOnState := by
  obtain ⟨hBLEN, hC, hL, hX, hPHASE⟩ := isReset_reset
  exact ⟨hBLEN, fun i => by rw [hC]; exact Vector.getElem_replicate i.isLt, hL,
    fun k => by rw [hX]; exact Vector.getElem_replicate k.isLt, hPHASE⟩

/-- Settles O11: the reset input runs CLEAR, which does not write BUF, and answers nothing. -/
theorem resetInputClears : Obligations.ResetInputClears := fun s rest hin =>
  ⟨_, step_event s _ rest hin, isReset_clear s.core, clear_BUF s.core, rfl, rfl⟩

/-- In a reset state every byte of BUF is stale, so two reset states differ in stale bytes only (R233). -/
theorem sameButStale_of_isReset {c d : CoreState} (hc : c.IsReset) (hd : d.IsReset) : c.SameButStale d := by
  obtain ⟨hBLEN, hC, hL, hX, hPHASE⟩ := hc
  obtain ⟨hBLEN', hC', hL', hX', hPHASE'⟩ := hd
  refine ⟨hBLEN.trans hBLEN'.symm, hC.trans hC'.symm, hL.trans hL'.symm, hX.trans hX'.symm, hPHASE.trans hPHASE'.symm, ?_⟩
  rw [hBLEN]
  exact fun i hi => absurd hi (Nat.not_lt_zero i.val)

/-! ## Runs a host cannot tell apart (R36, R233) -/

/-- Outcomes a host cannot tell apart are of the same kind: two next states, or one refusal. -/
theorem outcomeSameForHost_cases {o p : Host.Outcome State Fault Refusal} (h : OutcomeSameForHost o p) :
    (∃ s t, o = .next s ∧ p = .next t ∧ s.SameForHost t) ∨ ∃ reason, o = .refused reason ∧ p = .refused reason := by
  cases o with
  | next s =>
    cases p with
    | next t => exact .inl ⟨s, t, rfl, rfl, h⟩
    | fault e | refused reason => exact h.elim
  | fault e => nomatch e
  | refused reason =>
    cases p with
    | refused reason' => exact .inr ⟨reason, rfl, congrArg _ (Eq.symm h)⟩
    | next t | fault e => exact h.elim

/-- The states a host cannot tell apart stay so along a run, by induction on the number of steps (R136). -/
theorem run_sameForHost {s t : State} (h : s.SameForHost t) (n : Nat) :
    OutcomeSameForHost (Sys2Proof.core.run n s) (Sys2Proof.core.run n t) := by
  induction n generalizing s t with
  | zero =>
    rw [run_zero, run_zero]
    exact h
  | succ n ih =>
    obtain ⟨s', t', hs, ht, hnext⟩ | ⟨reason, hs, ht⟩ := outcomeSameForHost_cases (staleBytesUnobservable s t h)
    · rw [run_next n s s' hs, run_next n t t' ht]
      exact ih hnext
    · rw [run_refused n s reason hs, run_refused n t reason ht]
      exact rfl

/-- Settles O45: DIGEST and power-on both leave a reset state, and no run tells two reset states apart. -/
theorem afterDigestAsPowerOn : Obligations.AfterDigestAsPowerOn := by
  intro s t es n hexec
  obtain rfl := Host.Outcome.next.inj ((exec_digest_eq s).symm.trans hexec)
  have hcore : (finalizeState s.core).SameButStale State.reset.core := sameButStale_of_isReset (isReset_clear _) isReset_reset
  refine run_sameForHost ?_ n
  exact ⟨hcore, rfl, rfl⟩

/-! ## Broken duties (R236) -/

/-- An input space with read side effects breaks no duty exactly when the command has no input to read from. -/
theorem inputNotPlain_breach_none_iff (p : Packet) :
    HostAct.breach p .inputNotPlain = none ↔ p.word ≠ 3 ∨ p.bundle.input = none := by
  simp only [HostAct.breach, ite_eq_right_iff, reduceCtorEq, imp_false, Bool.and_eq_true, isBulkWord_iff, not_and_or,
    Option.not_isSome_iff_eq_none]

/-- One act that breaks a duty is enough: whatever else the host did during the command, the step is refused. -/
theorem step_refused_of_act {s : State} {r : Request} {rest : List HostEvent} (hin : s.inbox = .command r :: rest)
    {a : HostAct} (ha : a ∈ r.conduct) (hbreach : HostAct.breach r.packet a ≠ none) :
    ∃ reason, step s = .refused reason := by
  have hbroken : r.breach ≠ none := fun h => hbreach ((request_breach_none_iff r).1 h a ha)
  obtain ⟨reason, hreason⟩ := Option.ne_none_iff_exists'.1 hbroken
  refine ⟨reason, ?_⟩
  rw [step_event s _ rest hin, runEvent, runRequest, hreason]

/-- Settles O29: each of the five acts breaks a duty, the last two because the command reads the input. -/
theorem brokenDutyRefused : Obligations.BrokenDutyRefused := by
  intro s r rest hin hact
  obtain ha | ha | ha | ⟨hword, k, ha, hlo, hhi⟩ | ⟨hword, hinput, ha⟩ := hact
  · exact step_refused_of_act hin ha (Option.some_ne_none _)
  · exact step_refused_of_act hin ha (Option.some_ne_none _)
  · exact step_refused_of_act hin ha (Option.some_ne_none _)
  · refine step_refused_of_act hin ha fun h => ?_
    obtain hne | hbelow | habove := (changedInput_breach_none_iff r.packet k).1 h
    · exact hne hword
    · exact absurd hlo (not_le.2 hbelow)
    · exact absurd hhi (not_lt.2 habove)
  · refine step_refused_of_act hin ha fun h => ?_
    obtain hne | hnone := (inputNotPlain_breach_none_iff r.packet).1 h
    · exact hne hword
    · exact hinput hnone

end Sys2Proof.Machine
end
